-- ==== Sys2Proof/Word.lean ====
section
/-! DEFINITION. The word types of the block and its CPU context (00_scope R12, R13; 30_encoding R80, R81).
Every value the spec slices into bits or keeps in a register is a bit vector of that width. -/

namespace Sys2Proof

/-- A 4-bit field of a command word. -/
abbrev Nibble := BitVec 4

/-- A byte: a V register, a timer, a byte of main memory (R12, R35, R60). -/
abbrev Byte := BitVec 8

/-- The 12-bit field `op[11:0]` of the CPU's `Annn` and `1nnn` (R222, R223). -/
abbrev Addr12 := BitVec 12

/-- A 16-bit word: an opcode word (R80) or the index register I (R12). -/
abbrev Word := BitVec 16

/-- A register index 0..15 naming V0..VF (R12). -/
abbrev RegIx := Fin 16

end Sys2Proof
end

