-- ==== Sys2Proof/Syntax.lean ====
section
/-! DEFINITION. The instructions: one constructor per row of spec/opcode_table.json, the twelve block commands of
30_encoding R84 and the five CPU context rows of 48_cpu_context. Every field is typed at exactly the width its
encoding gives it (R81, R82), so no ill-formed operand can be written. -/

namespace Sys2Proof

/-- An instruction of the opcode table. -/
inductive Instr
  /-- 00E0 CLS (R100). -/
  | cls
  /-- 00FE LOW (R102). -/
  | low
  /-- 00FF HIGH (R103). -/
  | high
  /-- 00FB SCR (R123). -/
  | scr
  /-- 00FC SCL (R124). -/
  | scl
  /-- 00Cn SCD n (R125). -/
  | scd (n : Nibble)
  /-- 00Dn SCU n (R126). -/
  | scu (n : Nibble)
  /-- Fn01 PLANE n (R106). -/
  | plane (n : Nibble)
  /-- Dxyn DRW Vx, Vy, n (R140). -/
  | drw (x y : RegIx) (n : Nibble)
  /-- Fx07 LD Vx, DT (R180). -/
  | ldVxDt (x : RegIx)
  /-- Fx15 LD DT, Vx (R181). -/
  | ldDtVx (x : RegIx)
  /-- Fx18 LD ST, Vx (R182). -/
  | ldStVx (x : RegIx)
  /-- 6xNN LD Vx, NN (R221). -/
  | ldVxNn (x : RegIx) (nn : Byte)
  /-- Annn LD I, NNN (R222). -/
  | ldINnn (nnn : Addr12)
  /-- 1nnn JP NNN (R223). -/
  | jp (nnn : Addr12)
  /-- 3xNN SE Vx, NN (R224). -/
  | seVxNn (x : RegIx) (nn : Byte)
  /-- 4xNN SNE Vx, NN (R225). -/
  | sneVxNn (x : RegIx) (nn : Byte)
deriving DecidableEq, Repr

end Sys2Proof
end

