-- ==== Sys2Proof/Decode.lean ====
section
/-! DEFINITION. From bytes to instructions and back (30_encoding R80 to R88; 48_cpu_context R221 to R225).
Decoding is total and rejects by name; after it stand the encoder, written from the same encodings, and the
opcode table as rows of mask and match. -/

namespace Sys2Proof

/-- Why bytes decode to nothing. -/
inductive DecodeError
  /-- Fewer bytes than one word (R80). -/
  | truncated
  /-- The word matches no row of the opcode table (R86). -/
  | noRow (w : Word)
deriving DecidableEq, Repr

/-- `op[15:12]` (R81). -/
def fieldOp (w : Word) : Nibble := w.extractLsb' 12 4
/-- `op[11:8]` (R81). -/
def fieldX (w : Word) : Nibble := w.extractLsb' 8 4
/-- `op[7:4]` (R81). -/
def fieldY (w : Word) : Nibble := w.extractLsb' 4 4
/-- `op[3:0]` (R81). -/
def fieldN (w : Word) : Nibble := w.extractLsb' 0 4
/-- `op[7:0]` (R81). -/
def fieldNn (w : Word) : Byte := w.extractLsb' 0 8
/-- `op[11:0]` (R81). -/
def fieldNnn (w : Word) : Addr12 := w.extractLsb' 0 12

/-- The register a nibble names (R82). -/
def regOf (b : Nibble) : RegIx := b.toFin
/-- The nibble that names a register (R82). -/
def nibbleOf (x : RegIx) : Nibble := BitVec.ofFin x

/-- Stage two of R83 for op 0: the word must be 00nn; `nn` decides, with 00Cn and 00Dn on `nn[7:4]`. -/
def decodeOp0 (w : Word) : Option Instr :=
  if fieldX w = 0x0#4 then
    if fieldNn w = 0xE0#8 then some .cls
    else if fieldNn w = 0xFE#8 then some .low
    else if fieldNn w = 0xFF#8 then some .high
    else if fieldNn w = 0xFB#8 then some .scr
    else if fieldNn w = 0xFC#8 then some .scl
    else if fieldY w = 0xC#4 then some (.scd (fieldN w))
    else if fieldY w = 0xD#4 then some (.scu (fieldN w))
    else none
  else none

/-- Stage two of R83 for op F: `nn` decides. -/
def decodeOpF (w : Word) : Option Instr :=
  if fieldNn w = 0x01#8 then some (.plane (fieldX w))
  else if fieldNn w = 0x07#8 then some (.ldVxDt (regOf (fieldX w)))
  else if fieldNn w = 0x15#8 then some (.ldDtVx (regOf (fieldX w)))
  else if fieldNn w = 0x18#8 then some (.ldStVx (regOf (fieldX w)))
  else none

/-- The instruction of a word: the two-stage dispatch of R83 over the rows of R84 and the context rows. -/
def decodeWord (w : Word) : Option Instr :=
  if fieldOp w = 0x0#4 then decodeOp0 w
  else if fieldOp w = 0x1#4 then some (.jp (fieldNnn w))
  else if fieldOp w = 0x3#4 then some (.seVxNn (regOf (fieldX w)) (fieldNn w))
  else if fieldOp w = 0x4#4 then some (.sneVxNn (regOf (fieldX w)) (fieldNn w))
  else if fieldOp w = 0x6#4 then some (.ldVxNn (regOf (fieldX w)) (fieldNn w))
  else if fieldOp w = 0xA#4 then some (.ldINnn (fieldNnn w))
  else if fieldOp w = 0xD#4 then some (.drw (regOf (fieldX w)) (regOf (fieldY w)) (fieldN w))
  else if fieldOp w = 0xF#4 then decodeOpF w
  else none

/-- The word two bytes make: big-endian, the byte at the lower address is the high half (R80). -/
def wordOfBytes (hi lo : Byte) : Word := hi ++ lo

/-- Decode the first instruction of a list of bytes and give the rest. Every instruction is one word (R80, R88). -/
def decode : List Byte → Except DecodeError (Instr × List Byte)
  | hi :: lo :: rest =>
    match decodeWord (wordOfBytes hi lo) with
    | some i => .ok (i, rest)
    | none => .error (.noRow (wordOfBytes hi lo))
  | _ => .error .truncated

/-- A word from its four nibbles, `op[15:12]` first (R81). -/
def wordOfNibbles (op x y n : Nibble) : Word := (op ++ x) ++ (y ++ n)

/-- The word of an instruction, from the encodings of R84 and R221 to R225. -/
def encodeWord : Instr → Word
  | .cls => 0x00E0#16
  | .low => 0x00FE#16
  | .high => 0x00FF#16
  | .scr => 0x00FB#16
  | .scl => 0x00FC#16
  | .scd n => wordOfNibbles 0x0#4 0x0#4 0xC#4 n
  | .scu n => wordOfNibbles 0x0#4 0x0#4 0xD#4 n
  | .plane n => wordOfNibbles 0xF#4 n 0x0#4 0x1#4
  | .drw x y n => wordOfNibbles 0xD#4 (nibbleOf x) (nibbleOf y) n
  | .ldVxDt x => wordOfNibbles 0xF#4 (nibbleOf x) 0x0#4 0x7#4
  | .ldDtVx x => wordOfNibbles 0xF#4 (nibbleOf x) 0x1#4 0x5#4
  | .ldStVx x => wordOfNibbles 0xF#4 (nibbleOf x) 0x1#4 0x8#4
  | .ldVxNn x nn => (0x6#4 ++ nibbleOf x) ++ nn
  | .ldINnn nnn => 0xA#4 ++ nnn
  | .jp nnn => 0x1#4 ++ nnn
  | .seVxNn x nn => (0x3#4 ++ nibbleOf x) ++ nn
  | .sneVxNn x nn => (0x4#4 ++ nibbleOf x) ++ nn

/-- The high byte of a word, stored at the lower address (R80). -/
def highByte (w : Word) : Byte := w.extractLsb' 8 8
/-- The low byte of a word, stored at the next address (R80). -/
def lowByte (w : Word) : Byte := w.extractLsb' 0 8

/-- The bytes of an instruction as memory holds them. -/
def encode (i : Instr) : List Byte := [highByte (encodeWord i), lowByte (encodeWord i)]

/-- One row of the opcode table: a word is of the row when `word &&& mask = val` (R84). -/
structure OpcodeRow where
  mnemonic : String
  mask : Word
  val : Word
deriving DecidableEq, Repr

/-- The row an instruction belongs to, with the masks and matches of R84 and R221 to R225. -/
def Instr.row : Instr → OpcodeRow
  | .cls => ⟨"CLS", 0xFFFF#16, 0x00E0#16⟩
  | .low => ⟨"LOW", 0xFFFF#16, 0x00FE#16⟩
  | .high => ⟨"HIGH", 0xFFFF#16, 0x00FF#16⟩
  | .scr => ⟨"SCR", 0xFFFF#16, 0x00FB#16⟩
  | .scl => ⟨"SCL", 0xFFFF#16, 0x00FC#16⟩
  | .scd _ => ⟨"SCD_n", 0xFFF0#16, 0x00C0#16⟩
  | .scu _ => ⟨"SCU_n", 0xFFF0#16, 0x00D0#16⟩
  | .plane _ => ⟨"PLANE_n", 0xF0FF#16, 0xF001#16⟩
  | .drw _ _ _ => ⟨"DRW_Vx__Vy__n", 0xF000#16, 0xD000#16⟩
  | .ldVxDt _ => ⟨"LD_Vx__DT", 0xF0FF#16, 0xF007#16⟩
  | .ldDtVx _ => ⟨"LD_DT__Vx", 0xF0FF#16, 0xF015#16⟩
  | .ldStVx _ => ⟨"LD_ST__Vx", 0xF0FF#16, 0xF018#16⟩
  | .ldVxNn _ _ => ⟨"LD_Vx__NN", 0xF000#16, 0x6000#16⟩
  | .ldINnn _ => ⟨"LD_I__NNN", 0xF000#16, 0xA000#16⟩
  | .jp _ => ⟨"JP_NNN", 0xF000#16, 0x1000#16⟩
  | .seVxNn _ _ => ⟨"SE_Vx__NN", 0xF000#16, 0x3000#16⟩
  | .sneVxNn _ _ => ⟨"SNE_Vx__NN", 0xF000#16, 0x4000#16⟩

/-- The opcode table, in the table's order: the twelve rows of R84 and the five context rows. -/
def opcodeTable : List OpcodeRow :=
  [Instr.cls, .low, .high, .scr, .scl, .scd 0, .scu 0, .plane 0, .drw 0 0 0, .ldVxDt 0, .ldDtVx 0, .ldStVx 0,
    .ldVxNn 0 0, .ldINnn 0, .jp 0, .seVxNn 0 0, .sneVxNn 0 0].map Instr.row

/-- `word` is of row `r`. -/
def OpcodeRow.hits (r : OpcodeRow) (w : Word) : Bool := w &&& r.mask == r.val

/-- The instruction the decoder reads from the `nbits` bits of `w`, numbered as spec/opcode_table.json numbers
them: bit 0 is the least significant bit of the one word an instruction has. The word is laid out big-endian
(R80) and given to `decode`. -/
def decodeTableWord (nbits w : Nat) : Option Instr :=
  match decode [highByte (.ofNat 16 (w % 2 ^ nbits)), lowByte (.ofNat 16 (w % 2 ^ nbits))] with
  | .ok (i, _) => some i
  | .error _ => none

end Sys2Proof
end

