-- ==== Sys2Proof/Config.lean ====
section
/-! DEFINITION. The configuration parameters of 00_scope R10, fixed before reset and constant afterwards (R41),
and the model's one free value. The spec leaves the parameters OPEN ("the model takes it as an argument"): a
`Config` is a record that State carries unchanged, so that a statement about every state holds for every
configuration (log 1). -/

namespace Sys2Proof

/-- The seven dialects of R2. -/
inductive Arch
  | chip8 | chip8hires | chip48 | schip10 | schip11 | xochip | xochip16
deriving DecidableEq, Repr

/-- The command groups of R11 and R84. `cpu` is the opcode table's group of the five context rows
(48_cpu_context), which the CPU runs on every dialect. -/
inductive Group
  | base | schip | xo | cpu
deriving DecidableEq, Repr

/-- A display colour. R34: "a type the block does not interpret"; a natural number stands for it (log 12). -/
abbrev Colour := Nat

/-- The parameters of R10 that are not functions of ARCH. -/
structure Config where
  /-- ARCH, one of the seven of R2. -/
  arch : Arch
  /-- SPRITE_DELAY: DXYN waits for the video tick (R150). -/
  spriteDelay : Bool
  /-- SCREEN_WRAP: sprites wrap in both axes (R147). -/
  screenWrap : Bool
  /-- LORES_DOUBLE: lo-res scroll distances are halved (R121, R122). -/
  loresDouble : Bool
  /-- STRICT_BLIT_INDEX: a sprite address past memory traps (R152). -/
  strictBlitIndex : Bool
  /-- DEBUG_SKIP: an Invalid command is logged and skipped (R244). -/
  debugSkip : Bool
  /-- PALETTE: the 2^NP colours sent to the Display port at reset (R34, R205). -/
  palette : List Colour
  /-- CLOCK_SPEED in cycles per second; no rule depends on it (R10, R282). -/
  clockSpeed : Nat
deriving DecidableEq, Repr

/-- FREE VALUE (log 8). The word a skip instruction would look at when the word after it does not lie inside
main memory, as a function of its address: R224 says the skip is longer "if the next word is F000" and states
nothing about a next word that does not exist. No proof can see its value. -/
opaque Config.wordBeyondMemory : Nat → Word

end Sys2Proof
end

