-- ==== Sys2Proof/Machine/Capability.lean ====
section
/-! DEFINITION. The architecture capability table of 00_scope R11 and the display geometry of 10_state R32, as
functions of ARCH (and of HIRES). The table is the spec's own decision where R11 says so (92 D2, D26). -/

namespace Sys2Proof

/-- NP, the plane count (R11). -/
def Arch.planes : Arch → Nat
  | .chip8 | .chip8hires | .chip48 | .schip10 | .schip11 => 1
  | .xochip => 2
  | .xochip16 => 4

/-- MEMSIZE, the bytes of main memory (R11). -/
def Arch.memSize : Arch → Nat
  | .chip8 | .chip8hires | .chip48 | .schip10 | .schip11 => 4096
  | .xochip | .xochip16 => 65536

/-- HIRES_CAPABLE (R11, column "hires mode"). -/
def Arch.hiresCapable : Arch → Bool
  | .chip8 | .chip8hires => false
  | .chip48 | .schip10 | .schip11 | .xochip | .xochip16 => true

/-- `ARCH in {xochip, xochip16}` (R120, R143). -/
def Arch.isXo : Arch → Bool
  | .chip8 | .chip8hires | .chip48 | .schip10 | .schip11 => false
  | .xochip | .xochip16 => true

/-- The command groups ARCH accepts (R11, last column; R85). The context rows are the CPU's own and run on
every dialect. -/
def Arch.accepts (a : Arch) : Group → Bool
  | .base => true
  | .schip => a.hiresCapable
  | .xo => a.isXo
  | .cpu => true

/-- W, the width in pixels (R32). -/
def Arch.width (a : Arch) (hires : Bool) : Nat :=
  match a with
  | .chip8 | .chip8hires => 64
  | .chip48 | .schip10 | .schip11 | .xochip | .xochip16 => if hires then 128 else 64

/-- H, the height in pixels (R32). -/
def Arch.height (a : Arch) (hires : Bool) : Nat :=
  match a with
  | .chip8 => 32
  | .chip8hires => 64
  | .chip48 | .schip10 | .schip11 | .xochip | .xochip16 => if hires then 64 else 32

/-- The configuration of `State.reset` (log 1, DESIGN CHOICE: every parameter here is OPEN in R10). The dialect
is one that accepts every row of the opcode table; the quirks are those 95_test_vectors takes unless it says
otherwise. -/
def Config.atReset : Config :=
  { arch := .xochip, spriteDelay := false, screenWrap := false, loresDouble := false, strictBlitIndex := false,
    debugSkip := false, palette := [0, 1, 2, 3], clockSpeed := 0 }

end Sys2Proof
end

