-- ==== Sys2Proof/Machine/Framebuffer.lean ====
section
/-! DEFINITION. Planes of one-bit pixels (10_state R31) and the operations the commands make of them: reading a
pixel, building a plane pixel by pixel, inverting a pixel, rewriting the planes of a set. -/

namespace Sys2Proof.Machine

/-- One plane: a list of rows, each a list of pixels; row 0 is the top, pixel 0 the leftmost (R31). -/
abbrev Plane := List (List Bool)

/-- Pixel (x, y) of a plane; a position the plane does not have reads 0 (log 21). -/
def Plane.bit (pl : Plane) (y x : Nat) : Bool := (pl.getD y []).getD x false

/-- `FB[p][y][x]` (R14, R31). -/
def pixelAt (fb : List Plane) (p y x : Nat) : Bool := Plane.bit (fb.getD p []) y x

/-- The W by H plane whose pixel (x, y) is `f y x`: the `for y, x` loops of the command rules. -/
def Plane.build (w h : Nat) (f : Nat → Nat → Bool) : Plane :=
  (List.range h).map fun y => (List.range w).map fun x => f y x

/-- Every pixel 0. -/
def Plane.blank (w h : Nat) : Plane := List.replicate h (List.replicate w false)

/-- `FB[p][y][x] <- FB[p][y][x] xor 1` (R153). -/
def invertPixel (fb : List Plane) (p y x : Nat) : List Plane :=
  fb.modify p fun pl => pl.modify y fun row => row.modify x not

/-- Rewrite every plane of the set `sel` by `f`; the others stay. -/
def mapPlanes (sel : Nat → Bool) (f : Plane → Plane) (fb : List Plane) : List Plane :=
  fb.mapIdx fun p pl => if sel p then f pl else pl

/-- A plane has H rows of W pixels (R31). -/
abbrev Plane.HasSize (w h : Nat) (pl : Plane) : Prop := pl.length = h ∧ ∀ row ∈ pl, row.length = w

end Sys2Proof.Machine
end

