-- ==== Sys2Proof/Machine/State.lean ====
section
/-! DEFINITION. The state of the machine as plain data: the block's state (10_state R30), the CPU state its
commands reach (R42 to R44, 48_cpu_context R220), main memory (20_memory R60), the constant configuration
(00_scope R10), and what the ports and the scheduler need. -/

namespace Sys2Proof.Machine

/-- The three boot checks of 70_reset R271. -/
inductive BootCheck
  | archValid | planes | paletteSize
deriving DecidableEq, Repr

/-- The trap kinds of 60_exceptions R240 with the information each records. -/
inductive Trap
  /-- Code 0: a block command ARCH does not accept; `pc` is the address of the word (R241). -/
  | invalidOpcode (word : Word) (pc : Nat)
  /-- Code 1: the first sprite address past memory, under STRICT_BLIT_INDEX (R152, R242). -/
  | indexOutOfRange (addr : Nat)
  /-- Code 2: a Display port call failed (R208, R243). -/
  | displayPortError
  /-- Code 3: the boot check that failed (R245, R271). -/
  | configurationError (check : BootCheck)
deriving DecidableEq, Repr

/-- Whether the machine runs (R247, R258). -/
inductive Life
  | running
  /-- Stopped by a trap; the record is what the host receives (R247). -/
  | trapped (t : Trap)
  /-- Returned after a host stop, which is not a trap (R258). -/
  | returned
deriving DecidableEq, Repr

/-- What moves the machine by one step (R6, R258): a CPU cycle, a TICK, the host's stop request. -/
inductive Event
  | cycle | tick | stop
deriving DecidableEq, Repr

/-- One turn of the schedule: which event comes, and whether the Display and the Audio port accept the calls made
in that step (R208, R209). -/
structure Turn where
  event : Event
  displayOk : Bool
  audioOk : Bool
deriving DecidableEq, Repr

/-- The `dirty_rect` argument of `present` (44_framebuffer_reader R206). -/
structure Rect where
  x : Nat
  y : Nat
  width : Nat
  height : Nat
deriving DecidableEq, Repr

/-- What a step sends out: calls of the Display port (R200 to R207) and of the Audio port (R189), and the two log
lines the spec asks for (R209, R244). -/
inductive Output
  | setMode (width height planes : Nat)
  | setPalette (colours : List Colour)
  | present (bitmaps : List (List Byte)) (dirty : Rect)
  | gate (on : Bool)
  | logAudioFailure
  | logSkipped (word : Word) (pc : Nat)
deriving DecidableEq, Repr

/-- Why the machine makes no step. -/
inductive Fault
  /-- Raised by `step` in a machine a trap has stopped: "no further command step and no further TICK occurs"
  (R247). Safe: nothing follows a trap. -/
  | machineTrapped (t : Trap)
  /-- Raised by `step` in a machine that returned after a host stop (R258). Safe: nothing follows. -/
  | machineReturned
  /-- Raised by a CPU cycle whose word at `pc` does not lie inside main memory: "PC escapes addressable range.
  Fatal" (R242's source sentence; log 6). Safe: the model stops where the machine is fatal. -/
  | fetchOutOfRange (pc : Nat)
deriving DecidableEq, Repr

/-- Why the model gives a word no meaning. -/
inductive Refusal
  /-- Raised by `exec` for an instruction that has no meaning yet. Safe. No arm uses it. -/
  | notModelled (mnemonic : String)
  /-- Raised by a CPU cycle for a word of no row of the opcode table, which R86 leaves to the CPU outside this
  spec (R4). Safe: the model stops where the machine may go on (log 10). -/
  | wordOfNoRow (word : Word) (pc : Nat)
deriving DecidableEq, Repr

/-- The block's state, S1 to S7 of R30. -/
structure Block where
  /-- S1 FB, the NP planes (R31). -/
  fb : List Plane
  /-- S2 HIRES (R32). -/
  hires : Bool
  /-- S3 PM, the plane mask; its bits at and above NP are 0 (R33). -/
  pm : Nibble
  /-- S4 DT (R35). -/
  dt : Byte
  /-- S5 ST (R36). -/
  st : Byte
  /-- S6 VT (R37). -/
  vt : Byte
  /-- S7 WAIT (R39). -/
  wait : Bool
deriving DecidableEq, Repr

/-- The CPU state the commands reach and the context instructions use (R12, R220). -/
structure Cpu where
  /-- V0..VF (R12). -/
  v : Vector Byte 16
  /-- I (R12, R44). -/
  i : Word
  /-- PC, the address of the next word, as an unbounded natural (R220; log 6). -/
  pc : Nat
deriving DecidableEq, Repr

/-- Main memory as (address, byte) pairs, addresses strictly rising, no byte 0; an unlisted address reads 0,
since "memory ... created zeroed at boot" (R42, R220). -/
abbrev Memory := List Host.Cell

/-- The machine. -/
structure State where
  /-- The configuration; no step writes it (R41; log 1). -/
  cfg : Config
  /-- The block (R30). -/
  blk : Block
  /-- The CPU's registers (R220). -/
  cpu : Cpu
  /-- Main memory (R60). -/
  mem : Memory
  /-- The last value sent through the Audio port's gate (R189). -/
  gateSent : Bool
  /-- Whether the machine runs (R247, R258). -/
  life : Life
  /-- The coming turns; when it is empty every turn is a CPU cycle (log 2). The model's own field. -/
  schedule : List Turn
  /-- Whether the Display port accepts calls now (R208; log 3). The model's own field. -/
  displayOk : Bool
  /-- Whether the Audio port accepts calls now (R209; log 3). The model's own field. -/
  audioOk : Bool
  /-- What the step that led here sent out, oldest first (log 16). The model's own field. -/
  out : List Output
deriving DecidableEq, Repr

/-- The block after reset (R30, column "reset"; R270). -/
def Block.reset (c : Config) : Block :=
  { fb := List.replicate c.arch.planes (Plane.blank (c.arch.width false) (c.arch.height false)),
    hires := false, pm := 1#4, dt := 0#8, st := 0#8, vt := 0#8, wait := false }

/-- The CPU registers after reset (R220: V0..VF = 0, I = 0, PC = 0x200). -/
def Cpu.reset : Cpu := { v := Vector.replicate 16 0#8, i := 0#16, pc := 0x200 }

/-- The machine after the boot sequence of R272 with configuration `c`, before its first step: block, registers
and memory at their reset values, the calls of step 4 made, in its order. -/
def State.resetWith (c : Config) : State :=
  { cfg := c, blk := Block.reset c, cpu := Cpu.reset, mem := [], gateSent := false, life := .running,
    schedule := [], displayOk := true, audioOk := true,
    out := [.setMode (c.arch.width false) (c.arch.height false) c.arch.planes, .setPalette c.palette, .gate false] }

/-- The machine right after reset, with the configuration of log 1. -/
def State.reset : State := State.resetWith Config.atReset

end Sys2Proof.Machine
end

