-- ==== Sys2Proof/Machine/Ops.lean ====
section
/-! DEFINITION. The shared operations: main memory, the registers, the block's status protocol with the CPU
(00_scope R8, R9), the tone gate (43_timers R189), and taking a trap (60_exceptions R246, R247). There is no
return from a trap: "There is no trap-return command" (R248). -/

namespace Sys2Proof.Machine

/-! ### Main memory (20_memory R60) -/

/-- What an address no entry lists reads as: memory is "created zeroed at boot" (R42, R220). -/
def unlistedByte : Byte := 0#8

/-- `MemRead(a, 1)` (R14, R60); a read changes nothing (R62). -/
def Memory.read : Memory → Nat → Byte
  | [], _ => unlistedByte
  | (k, c) :: rest, a => if k = a then c else Memory.read rest a

/-- Put a byte at an address, keeping the canonical form. No command of the block and no context instruction
writes memory (R60); loading a program does (R272 step 5, log 11). -/
def Memory.write : Memory → Nat → Byte → Memory
  | [], a, b => if b = unlistedByte then [] else [(a, b)]
  | (k, c) :: rest, a, b =>
    if a < k then (if b = unlistedByte then (k, c) :: rest else (a, b) :: (k, c) :: rest)
    else if a = k then (if b = unlistedByte then rest else (a, b) :: rest)
    else (k, c) :: Memory.write rest a b

/-- The canonical form: addresses strictly rising, no entry equal to what an unlisted address reads as. -/
abbrev Memory.wf (m : Memory) : Prop :=
  m.Pairwise (fun c d => c.1 < d.1) ∧ ∀ c ∈ m, c.2 ≠ unlistedByte

/-- Put bytes at consecutive addresses. -/
def Memory.writeBytes (m : Memory) (a : Nat) : List Byte → Memory
  | [] => m
  | b :: rest => Memory.writeBytes (Memory.write m a b) (a + 1) rest

/-! ### One update per field of State -/

def State.setBlk (s : State) (b : Block) : State := { s with blk := b }
def State.setPc (s : State) (pc : Nat) : State := { s with cpu := { s.cpu with pc := pc } }
def State.setI (s : State) (i : Word) : State := { s with cpu := { s.cpu with i := i } }
def State.setV (s : State) (x : RegIx) (b : Byte) : State :=
  { s with cpu := { s.cpu with v := s.cpu.v.set x.val b x.isLt } }
def State.setMem (s : State) (m : Memory) : State := { s with mem := m }
def State.setGateSent (s : State) (on : Bool) : State := { s with gateSent := on }
def State.setLife (s : State) (l : Life) : State := { s with life := l }
def State.setSchedule (s : State) (ts : List Turn) : State := { s with schedule := ts }
def State.setPorts (s : State) (display audio : Bool) : State := { s with displayOk := display, audioOk := audio }
def State.setOut (s : State) (o : List Output) : State := { s with out := o }

/-- `V[x]` as the CPU supplies it (R8, R12). -/
def State.getV (s : State) (x : RegIx) : Byte := s.cpu.v[x.val]

/-- The CPU advances PC past the word it fetched (R9, R220). -/
def State.advance (s : State) : State := s.setPc (s.cpu.pc + 2)

/-! ### The display's derived quantities (R15, R32) -/

/-- W, the current width. -/
def State.width (s : State) : Nat := s.cfg.arch.width s.blk.hires
/-- H, the current height. -/
def State.height (s : State) : Nat := s.cfg.arch.height s.blk.hires

/-- `p ∈ S`: plane p exists and PM selects it (R15). -/
def selected (c : Config) (b : Block) (p : Nat) : Bool := decide (p < c.arch.planes) && b.pm.getLsbD p

/-- S in ascending order (R14, R15). -/
def selectedPlanes (c : Config) (b : Block) : List Nat := (List.range c.arch.planes).filter fun p => b.pm.getLsbD p

/-! ### A command's result and the CPU's answer to it (R8, R9) -/

/-- The status of a command step (R8). -/
inductive Status
  | done | stall | invalid
  | trap (t : Trap)
deriving DecidableEq, Repr

/-- What a command step produces (R8): the block's new state, exactly one status, at most one register write
request; and the port calls it made. -/
structure Result where
  blk : Block
  status : Status
  write : Option (RegIx × Byte)
  calls : List Output
deriving DecidableEq, Repr

/-- The command completes with the block in state `b`. -/
def Result.completes (b : Block) : Result := { blk := b, status := .done, write := none, calls := [] }

/-- `accept(G)` (40_display_control; R85): a command ARCH does not accept returns Invalid and the block does
nothing. -/
def accept (c : Config) (g : Group) (b : Block) (r : Result) : Result :=
  if c.arch.accepts g then r else { blk := b, status := .invalid, write := none, calls := [] }

/-- The code of a trap kind (R240). -/
def Trap.code : Trap → Nat
  | .invalidOpcode _ _ => 0
  | .indexOutOfRange _ => 1
  | .displayPortError => 2
  | .configurationError _ => 3

/-- TAKING A TRAP (R247): the machine stops and the host receives the record; the block saves no state elsewhere,
changes no mode and jumps to no vector. -/
def takeTrap (t : Trap) (s : State) : State := s.setLife (.trapped t)

/-- The tone gate (R40, R189). -/
def Block.toneGate (b : Block) : Bool := b.st != 0#8

/-- The calls the gate's evaluation makes: `gate(on)` when the value differs from the last one sent; a failing
Audio port is logged and stops nothing (R189, R209). -/
def State.gateCalls (s : State) : List Output :=
  if s.blk.toneGate = s.gateSent then []
  else .gate s.blk.toneGate :: (if s.audioOk then [] else [.logAudioFailure])

/-- The gate is evaluated after every command step and every TICK (R189). A failed call counts as sent (log 15). -/
def State.evalGate (s : State) : State :=
  (s.setOut (s.out ++ s.gateCalls)).setGateSent s.blk.toneGate

/-- The CPU performs the block's register write request (R8). -/
def State.performWrite (s : State) : Option (RegIx × Byte) → State
  | none => s
  | some (x, b) => s.setV x b

/-- The CPU's answer to status Invalid: InvalidOpcode with the word and its address, or, in debug mode, a log line
and a skip (R9, R241, R244); either way the gate is evaluated after the step (R189). The PC of a trapped machine stands
past the word (log 5). -/
def raiseInvalid (w : Word) (s : State) : State :=
  if s.cfg.debugSkip then (s.advance.setOut [.logSkipped w s.cpu.pc]).evalGate
  else takeTrap (.invalidOpcode w s.cpu.pc) (s.advance.setOut []).evalGate

/-- The CPU acts on a command's result (R9): Done performs the register write and keeps PC advanced, Stall leaves PC at
the command's word, Invalid is `raiseInvalid`, Trap stops the machine with the block as it was (R246). The gate is
evaluated after every one of them (R189). -/
def retire (w : Word) (r : Result) (s : State) : Host.Outcome State Fault Refusal :=
  match r.status with
  | .done => .next (((s.setBlk r.blk).performWrite r.write).advance.setOut r.calls).evalGate
  | .stall => .next ((s.setBlk r.blk).setOut r.calls).evalGate
  | .invalid => .next (raiseInvalid w s)
  | .trap t => .next (takeTrap t (s.advance.setOut r.calls).evalGate)

/-! ### Fetch (R220) -/

/-- Both bytes of the word at `a` lie inside main memory (R60, R61). -/
def State.wordInMemory (s : State) (a : Nat) : Bool := decide (a + 1 < s.cfg.arch.memSize)

/-- The big-endian word at `a` (R80, R220). -/
def State.readWord (s : State) (a : Nat) : Word := wordOfBytes (s.mem.read a) (s.mem.read (a + 1))

/-- The bytes a CPU cycle fetches at PC, or none where the word does not lie inside memory (log 6). -/
def State.fetch (s : State) : Option (List Byte) :=
  if s.wordInMemory s.cpu.pc then some [s.mem.read s.cpu.pc, s.mem.read (s.cpu.pc + 1)] else none

/-- The next turn of the schedule, and the state with it taken: its port answers hold for the step. When no turn
is listed the CPU runs a cycle and the answers stay (log 2, log 3). -/
def State.takeTurn (s : State) : Event × State :=
  match s.schedule with
  | [] => (.cycle, s)
  | t :: rest => (t.event, (s.setSchedule rest).setPorts t.displayOk t.audioOk)

/-- Make the next turn a CPU cycle, where it is not one already. -/
def State.nextIsCycle (s : State) : State :=
  match s.takeTurn.1 with
  | .cycle => s
  | .tick | .stop => s.setSchedule ({ event := .cycle, displayOk := s.displayOk, audioOk := s.audioOk } :: s.schedule)

/-- The word `w` placed where the next CPU cycle fetches, in a machine that runs: at PC, or at 0x200 where the word
at PC would not lie inside memory. -/
def State.placeWord (s : State) (w : Word) : State :=
  let t := (s.setLife .running).nextIsCycle
  let u := if t.wordInMemory t.cpu.pc then t else t.setPc 0x200
  u.setMem (u.mem.writeBytes u.cpu.pc [highByte w, lowByte w])

end Sys2Proof.Machine
end

