-- ==== Sys2Proof/Machine/Operands.lean ====
section
/-! DEFINITION. The operand forms: scroll targets and distances (41_scroll R120 to R122), the sprite's geometry,
addresses and bits (42_sprite_blit R142 to R147), and the length of a skip (48_cpu_context R224). -/

namespace Sys2Proof.Machine

/-! ### Scrolls -/

/-- `p ∈ T`, the planes a scroll writes: the selected ones on the XO dialects, every plane elsewhere (R120). -/
def scrollTarget (c : Config) (b : Block) (p : Nat) : Bool :=
  if c.arch.isXo then selected c b p else decide (p < c.arch.planes)

/-- kh, the horizontal distance (R121). -/
def scrollH (c : Config) (b : Block) : Nat := if b.hires then 4 else if c.loresDouble then 2 else 4

/-- kv, the vertical distance for field n (R122). -/
def scrollV (c : Config) (b : Block) (n : Nibble) : Nat :=
  if b.hires then n.toNat else if c.loresDouble then n.toNat / 2 else n.toNat

/-! ### Sprites -/

/-- A sprite's width in pixels, rows, and bytes per row (R143). -/
structure Shape where
  width : Nat
  rows : Nat
  rowBytes : Nat
deriving DecidableEq, Repr

/-- `geometry(n)` (R143). -/
def spriteShape (c : Config) (b : Block) (n : Nibble) : Shape :=
  if n = 0#4 ∧ (b.hires = true ∨ c.arch.isXo = true) then { width := 16, rows := 16, rowBytes := 2 }
  else { width := 8, rows := n.toNat, rowBytes := 1 }

/-- sz, the bytes of one plane's sprite (R144). -/
def Shape.size (g : Shape) : Nat := g.rows * g.rowBytes

/-- The address of byte b of row r of plane p's sprite, an unbounded natural (R145). -/
def spriteAddr (g : Shape) (i : Word) (p r b : Nat) : Nat := i.toNat + p * g.size + r * g.rowBytes + b

/-- Every address the command reads, in its order: planes, rows, bytes (R151). -/
def spriteAddrs (g : Shape) (i : Word) (planes : List Nat) : List Nat :=
  planes.flatMap fun p => (List.range g.rows).flatMap fun r => (List.range g.rowBytes).map fun b => spriteAddr g i p r b

/-- The first address not below MEMSIZE (R152). -/
def firstOutOfRange (c : Config) (addrs : List Nat) : Option Nat := addrs.find? fun a => decide (c.arch.memSize ≤ a)

/-- A sprite byte; past memory it is read modulo MEMSIZE (R152; reached there only when not strict). -/
def spriteByte (c : Config) (m : Memory) (g : Shape) (i : Word) (p r b : Nat) : Byte :=
  m.read (spriteAddr g i p r b % c.arch.memSize)

/-- The bits of a row as one number: one byte, or two with the first the left half (R64, R146). -/
def rowBits (c : Config) (m : Memory) (g : Shape) (i : Word) (p r : Nat) : Nat :=
  if g.rowBytes = 1 then (spriteByte c m g i p r 0).toNat
  else (spriteByte c m g i p r 0).toNat * 256 + (spriteByte c m g i p r 1).toNat

/-- `bits[w-1-c]`, the pixel of column `col`: the most significant bit is the leftmost pixel (R65, R146). -/
def spriteBit (c : Config) (m : Memory) (g : Shape) (i : Word) (p r col : Nat) : Bool :=
  (rowBits c m g i p r).testBit (g.width - 1 - col)

/-- `target(tx, ty)` as (ty, tx), or none where the pixel is clipped (R147). One target comes from one sprite pixel at
most, as a sprite is smaller than the plane (R148; `target_inj`). -/
def target (wrap : Bool) (w h ty tx : Nat) : Option (Nat × Nat) :=
  if wrap then some (ty % h, tx % w)
  else if w ≤ tx ∨ h ≤ ty then none
  else some (ty, tx)

/-! ### Skips -/

/-- The word at `a` for a skip to look at; a free value where it does not lie inside memory (log 8). -/
def State.peekWord (s : State) (a : Nat) : Word :=
  if s.wordInMemory a then s.readWord a else Config.wordBeyondMemory a

/-- How far a skip goes past the next word at `a`: 4 over the two-word F000, else 2 (R224; log 9). -/
def State.skipLength (s : State) (a : Nat) : Nat := if s.peekWord a = 0xF000#16 then 4 else 2

end Sys2Proof.Machine
end

