-- ==== Sys2Proof/Machine/Flags.lean ====
section
/-! DEFINITION. The one flag of the block: VF, the collision bit of a blit (42_sprite_blit R153 to R158). -/

namespace Sys2Proof.Machine

/-- VF is V[15] (R12). -/
def regVF : RegIx := 15

/-- The value written to VF: 0x00 or 0x01 (R158). -/
def collisionByte (coll : Bool) : Byte := if coll then 1#8 else 0#8

/-- One drawn pixel (plane, row, column): collide if the framebuffer pixel was 1, then invert it (R153, R154). -/
def blitPixel (acc : List Plane × Bool) (hit : Nat × Nat × Nat) : List Plane × Bool :=
  (invertPixel acc.1 hit.1 hit.2.1 hit.2.2, acc.2 || pixelAt acc.1 hit.1 hit.2.1 hit.2.2)

/-- Draw a list of pixels, and the collision bit: one bit for the whole command (R155). As no pixel of a sprite is listed
twice, each test sees the pixel from before the command, whatever the order (R148; `blitPixels_spec`). -/
def blitPixels (fb : List Plane) (hits : List (Nat × Nat × Nat)) : List Plane × Bool :=
  hits.foldl blitPixel (fb, false)

end Sys2Proof.Machine
end

