-- ==== Sys2Proof/Machine/Blit.lean ====
section
/-! DEFINITION. The sprite blit DXYN of 42_sprite_blit. -/

namespace Sys2Proof.Machine

/-- The framebuffer pixels (plane, row, column) the sprite's 1 bits land on, clipped ones left out, in the order of R140's phase 2. `x0`, `y0` is the start position. No pixel is listed twice (R148;
`spriteHits_nodup` in Laws/Blit.lean proves it). -/
def spriteHits (c : Config) (b : Block) (m : Memory) (i : Word) (x0 y0 : Nat) (g : Shape) : List (Nat × Nat × Nat) :=
  (selectedPlanes c b).flatMap fun p => (List.range g.rows).flatMap fun r => (List.range g.width).filterMap fun col =>
    if spriteBit c m g i p r col then
      (target c.screenWrap (c.arch.width b.hires) (c.arch.height b.hires) (y0 + r) (x0 + col)).map fun t => (p, t.1, t.2)
    else none

/-- The framebuffer after the blit, and the collision bit (R140 phase 2, with the start of R142). -/
def drawSprite (c : Config) (b : Block) (m : Memory) (vx vy : Byte) (i : Word) (n : Nibble) : List Plane × Bool :=
  blitPixels b.fb (spriteHits c b m i (vx.toNat % c.arch.width b.hires) (vy.toNat % c.arch.height b.hires)
    (spriteShape c b n))

/-- The address that makes the command trap: the first one out of range, under STRICT_BLIT_INDEX (R152). -/
def strictFailure (c : Config) (b : Block) (i : Word) (n : Nibble) : Option Nat :=
  if c.strictBlitIndex then firstOutOfRange c (spriteAddrs (spriteShape c b n) i (selectedPlanes c b)) else none

/-- The completing step: every address is checked before the first pixel is written (R151, R152), then the sprite is
drawn, WAIT is cleared under SPRITE_DELAY (R150), and VF is requested last (R158). -/
def blitResult (c : Config) (b : Block) (m : Memory) (vx vy : Byte) (i : Word) (n : Nibble) : Result :=
  match strictFailure c b i n with
  | some a => { blk := b, status := .trap (.indexOutOfRange a), write := none, calls := [] }
  | none =>
    { blk := { b with fb := (drawSprite c b m vx vy i n).1, wait := if c.spriteDelay then false else b.wait }
      status := .done
      write := some (regVF, collisionByte (drawSprite c b m vx vy i n).2)
      calls := [] }

/-- The sprite-delay gating of R150 around the completing step, in R249's order of checks. -/
def drwResult (c : Config) (b : Block) (m : Memory) (vx vy : Byte) (i : Word) (n : Nibble) : Result :=
  if c.spriteDelay = true ∧ b.wait = false then
    { blk := { b with wait := true, vt := 1#8 }, status := .stall, write := none, calls := [] }
  else if c.spriteDelay = true ∧ b.vt ≠ 0#8 then
    { blk := b, status := .stall, write := none, calls := [] }
  else blitResult c b m vx vy i n

/-- DRW Vx, Vy, n, Dxyn (R140). The operands are those of this step (R141, R161). -/
def execDrw (x y : RegIx) (n : Nibble) (s : State) : Host.Outcome State Fault Refusal :=
  retire (encodeWord (.drw x y n)) (accept s.cfg .base s.blk
    (drwResult s.cfg s.blk s.mem (s.getV x) (s.getV y) s.cpu.i n)) s

end Sys2Proof.Machine
end

