-- ==== Sys2Proof/Machine/CpuContext.lean ====
section
/-! DEFINITION. The CPU context instructions of 48_cpu_context: 6xNN, Annn, 1nnn, 3xNN, 4xNN. They are CPU cycles, not
command steps: the block sees none of them (R4) and the gate is not evaluated (log 17). -/

namespace Sys2Proof.Machine

/-- LD Vx, NN, 6xNN (R221). -/
def execLdVxNn (x : RegIx) (nn : Byte) (s : State) : Host.Outcome State Fault Refusal :=
  .next ((s.setV x nn).advance.setOut [])

/-- LD I, NNN, Annn (R222). -/
def execLdINnn (nnn : Addr12) (s : State) : Host.Outcome State Fault Refusal :=
  .next ((s.setI (nnn.setWidth 16)).advance.setOut [])

/-- JP NNN, 1nnn (R223). -/
def execJp (nnn : Addr12) (s : State) : Host.Outcome State Fault Refusal :=
  .next ((s.setPc nnn.toNat).setOut [])

/-- PC past this word, and past the next one where the skip is taken (R220, R224). -/
def skipIf (cond : Bool) (s : State) : State :=
  (if cond then s.setPc (s.cpu.pc + 2 + s.skipLength (s.cpu.pc + 2)) else s.advance).setOut []

/-- SE Vx, NN, 3xNN (R224). -/
def execSeVxNn (x : RegIx) (nn : Byte) (s : State) : Host.Outcome State Fault Refusal :=
  .next (skipIf (s.getV x == nn) s)

/-- SNE Vx, NN, 4xNN (R225). -/
def execSneVxNn (x : RegIx) (nn : Byte) (s : State) : Host.Outcome State Fault Refusal :=
  .next (skipIf (s.getV x != nn) s)

end Sys2Proof.Machine
end

