-- ==== Sys2Proof/Machine/DisplayControl.lean ====
section
/-! DEFINITION. The display control commands of 40_display_control: CLS, LOW, HIGH, PLANE. -/

namespace Sys2Proof.Machine

/-- R100: every pixel of the selected planes becomes 0. -/
def clsResult (c : Config) (b : Block) : Result :=
  .completes { b with fb := mapPlanes (selected c b) (fun _ => Plane.blank (c.arch.width b.hires) (c.arch.height b.hires)) b.fb }

/-- R101: HIRES takes the value, every plane is cleared at the new geometry, PM stays, and `set_mode` is called;
where the Display port fails, DisplayPortError (R208, R243; log 14). -/
def modeResult (c : Config) (b : Block) (hires displayOk : Bool) : Result :=
  { blk := { b with hires := hires, fb := List.replicate c.arch.planes (Plane.blank (c.arch.width hires) (c.arch.height hires)) }
    status := if displayOk then .done else .trap .displayPortError
    write := none
    calls := [.setMode (c.arch.width hires) (c.arch.height hires) c.arch.planes] }

/-- CLS, 00E0 (R100). -/
def execCls (s : State) : Host.Outcome State Fault Refusal :=
  retire (encodeWord .cls) (accept s.cfg .base s.blk (clsResult s.cfg s.blk)) s

/-- LOW, 00FE (R102). -/
def execLow (s : State) : Host.Outcome State Fault Refusal :=
  retire (encodeWord .low) (accept s.cfg .schip s.blk (modeResult s.cfg s.blk false s.displayOk)) s

/-- HIGH, 00FF (R103). -/
def execHigh (s : State) : Host.Outcome State Fault Refusal :=
  retire (encodeWord .high) (accept s.cfg .schip s.blk (modeResult s.cfg s.blk true s.displayOk)) s

/-- `n mod 2^NP` (R106). -/
def planeMask (c : Config) (n : Nibble) : Nibble := BitVec.ofNat 4 (n.toNat % 2 ^ c.arch.planes)

/-- PLANE n, Fn01 (R106). -/
def execPlane (n : Nibble) (s : State) : Host.Outcome State Fault Refusal :=
  retire (encodeWord (.plane n)) (accept s.cfg .xo s.blk (.completes { s.blk with pm := planeMask s.cfg n })) s

end Sys2Proof.Machine
end

