-- ==== Sys2Proof/Machine/Scroll.lean ====
section
/-! DEFINITION. The scroll commands of 41_scroll: SCR, SCL, SCD, SCU. A scroll discards what it moves past the edge
and fills with 0 (R127), and touches nothing but the pixels of its target planes (R128). -/

namespace Sys2Proof.Machine

/-- R123: `FB[p][y][x] <- (x >= k) ? FB[p][y][x-k] : 0`. -/
def scrollRight (w h k : Nat) (pl : Plane) : Plane :=
  Plane.build w h fun y x => if k ≤ x then pl.bit y (x - k) else false

/-- R124: `FB[p][y][x] <- (x + k < W) ? FB[p][y][x+k] : 0`. -/
def scrollLeft (w h k : Nat) (pl : Plane) : Plane :=
  Plane.build w h fun y x => if x + k < w then pl.bit y (x + k) else false

/-- R125: `FB[p][y][x] <- (y >= k) ? FB[p][y-k][x] : 0`. -/
def scrollDown (w h k : Nat) (pl : Plane) : Plane :=
  Plane.build w h fun y x => if k ≤ y then pl.bit (y - k) x else false

/-- R126: `FB[p][y][x] <- (y + k < H) ? FB[p][y+k][x] : 0`. -/
def scrollUp (w h k : Nat) (pl : Plane) : Plane :=
  Plane.build w h fun y x => if y + k < h then pl.bit (y + k) x else false

/-- Scroll the target planes by `f`, given the current width and height (R120, R128). -/
def scrollResult (c : Config) (b : Block) (f : Nat → Nat → Plane → Plane) : Result :=
  .completes { b with fb := mapPlanes (scrollTarget c b) (f (c.arch.width b.hires) (c.arch.height b.hires)) b.fb }

/-- SCR, 00FB (R123). -/
def execScr (s : State) : Host.Outcome State Fault Refusal :=
  retire (encodeWord .scr) (accept s.cfg .schip s.blk
    (scrollResult s.cfg s.blk fun w h => scrollRight w h (scrollH s.cfg s.blk))) s

/-- SCL, 00FC (R124). -/
def execScl (s : State) : Host.Outcome State Fault Refusal :=
  retire (encodeWord .scl) (accept s.cfg .schip s.blk
    (scrollResult s.cfg s.blk fun w h => scrollLeft w h (scrollH s.cfg s.blk))) s

/-- SCD n, 00Cn (R125). -/
def execScd (n : Nibble) (s : State) : Host.Outcome State Fault Refusal :=
  retire (encodeWord (.scd n)) (accept s.cfg .schip s.blk
    (scrollResult s.cfg s.blk fun w h => scrollDown w h (scrollV s.cfg s.blk n))) s

/-- SCU n, 00Dn (R126). -/
def execScu (n : Nibble) (s : State) : Host.Outcome State Fault Refusal :=
  retire (encodeWord (.scu n)) (accept s.cfg .xo s.blk
    (scrollResult s.cfg s.blk fun w h => scrollUp w h (scrollV s.cfg s.blk n))) s

end Sys2Proof.Machine
end

