-- ==== Sys2Proof/Machine/Timer.lean ====
section
/-! DEFINITION. The timer commands of 43_timers: Fx07, Fx15, Fx18, and the countdown of R186. -/

namespace Sys2Proof.Machine

/-- LD Vx, DT, Fx07 (R180). -/
def execLdVxDt (x : RegIx) (s : State) : Host.Outcome State Fault Refusal :=
  retire (encodeWord (.ldVxDt x)) (accept s.cfg .base s.blk
    { Result.completes s.blk with write := some (x, s.blk.dt) }) s

/-- LD DT, Vx, Fx15 (R181). -/
def execLdDtVx (x : RegIx) (s : State) : Host.Outcome State Fault Refusal :=
  retire (encodeWord (.ldDtVx x)) (accept s.cfg .base s.blk (.completes { s.blk with dt := s.getV x })) s

/-- LD ST, Vx, Fx18 (R182). -/
def execLdStVx (x : RegIx) (s : State) : Host.Outcome State Fault Refusal :=
  retire (encodeWord (.ldStVx x)) (accept s.cfg .base s.blk (.completes { s.blk with st := s.getV x })) s

/-- A timer counts down and saturates at 0 (R186). -/
def countDown (t : Byte) : Byte := if t = 0#8 then 0#8 else t - 1#8

/-- The timers of a TICK; it writes nothing else in the block (R186). -/
def tickBlock (b : Block) : Block := { b with dt := countDown b.dt, st := countDown b.st, vt := countDown b.vt }

end Sys2Proof.Machine
end

