-- ==== Sys2Proof/Machine/Reader.lean ====
section
/-! DEFINITION. The framebuffer reader of 44_framebuffer_reader: the packed bitmaps (20_memory R69, R200), the colour
index (R201) and the `present` call (R202, R206). Reading changes no block state. -/

namespace Sys2Proof.Machine

/-- Eight pixels as a byte, the leftmost in bit 7 (R69). -/
def packPixels (f : Nat → Bool) : Byte := BitVec.ofBoolListBE [f 0, f 1, f 2, f 3, f 4, f 5, f 6, f 7]

/-- Byte `k` of a plane's bitmap: row-major, `W/8` bytes a row (R69). -/
def packedByte (w : Nat) (pl : Plane) (k : Nat) : Byte :=
  packPixels fun j => pl.bit (k / (w / 8)) (8 * (k % (w / 8)) + j)

/-- The bitmap of a plane: H rows of W/8 bytes (R69, R200). -/
def packedPlane (w h : Nat) (pl : Plane) : List Byte := (List.range (h * (w / 8))).map (packedByte w pl)

/-- The bitmaps the reader exposes: one for each plane p < NP (R200). -/
def State.bitmaps (s : State) : List (List Byte) :=
  (List.range s.cfg.arch.planes).map fun p => packedPlane s.width s.height (s.blk.fb.getD p [])

/-- The colour index of pixel (x, y): `sum over p < NP of FB[p][y][x] * 2^p` (R201). -/
def State.colourIndex (s : State) (x y : Nat) : Nat :=
  ((List.range s.cfg.arch.planes).map fun p => (pixelAt s.blk.fb p y x).toNat * 2 ^ p).sum

/-- The displayed colour, `PALETTE[colour(x, y)]` (R201); none where PALETTE has no such entry. -/
def State.displayedColour (s : State) (x y : Nat) : Option Colour := s.cfg.palette[s.colourIndex x y]?

/-- `present(plane_bitmaps, dirty_rect)` with the whole screen as dirty rectangle (R202, R206). -/
def State.presentCall (s : State) : Output := .present s.bitmaps { x := 0, y := 0, width := s.width, height := s.height }

end Sys2Proof.Machine
end

