-- ==== Sys2Proof/Machine/Events.lean ====
section
/-! DEFINITION. The three events of 00_scope R6 and 60_exceptions R258: a CPU cycle, the TICK, the host's stop. -/

namespace Sys2Proof.Machine

/-- A CPU cycle (R220): fetch the word at PC, decode it, run it. A word of no table row is refused (log 10), a word
outside memory stops the machine (log 6). -/
def State.cycle (s : State) : Host.Outcome State Fault Refusal :=
  match s.fetch with
  | none => .fault (.fetchOutOfRange s.cpu.pc)
  | some bytes =>
    match decode bytes with
    | .ok (i, _) => exec i s
    | .error _ => .refused (.wordOfNoRow (s.readWord s.cpu.pc) s.cpu.pc)

/-- The TICK (R186, R187): the timers count down, then the framebuffer is presented, then the gate is evaluated (R189).
Where `present` fails, DisplayPortError after the decrement (R243, R250), and the gate is evaluated all the same: R189
says after every TICK. The input poll and the audio advance of R187 are outside the block. -/
def State.tick (s : State) : State :=
  let t := ((s.setBlk (tickBlock s.blk)).setOut [s.presentCall]).evalGate
  if s.displayOk then t else takeTrap .displayPortError t

/-- The host's stop (R207, R258): one final `present`, then the machine returns; where that call fails,
DisplayPortError (R243). -/
def State.hostStop (s : State) : State :=
  let t := s.setOut [s.presentCall]
  if s.displayOk then t.setLife .returned else takeTrap .displayPortError t

/-- One event (R7: each is one indivisible step). -/
def State.perform (s : State) : Event → Host.Outcome State Fault Refusal
  | .cycle => s.cycle
  | .tick => .next s.tick
  | .stop => .next s.hostStop

/-- The next turn of a running machine. -/
def State.runTurn (s : State) : Host.Outcome State Fault Refusal := s.takeTurn.2.perform s.takeTurn.1

end Sys2Proof.Machine
end

