-- ==== Sys2Proof/Machine/Step.lean ====
section
/-! DEFINITION. One step of the machine. -/

namespace Sys2Proof.Machine

/-- One step: a running machine takes its next turn; a stopped one makes no step (R247, R248, R258). -/
def step (s : State) : Host.Outcome State Fault Refusal :=
  match s.life with
  | .running => s.runTurn
  | .trapped t => .fault (.machineTrapped t)
  | .returned => .fault .machineReturned

/-- `s` with the one-word instruction `w` stored where `step` fetches its next instruction, big-endian (R80). -/
def State.withFetchWord (s : State) (nbits w : Nat) : State := s.placeWord (.ofNat 16 (w % 2 ^ nbits))

end Sys2Proof.Machine
end

