-- ==== Sys2Proof/Machine/Boot.lean ====
section
/-! DEFINITION. The boot of 70_reset R271 and R272, up to the first step: the configuration check, reset, the three
port calls; and the loading of a program, which the spec places outside the block (R272 step 5, log 11). -/

namespace Sys2Proof.Machine

/-- What the host asks for at boot (R10, R271): a dialect, none if it is not one of the seven; a plane count and an
initial plane mask where a preset or override gives one; and the rest of the configuration, whose `arch` counts only
once the dialect is known. -/
structure BootRequest where
  arch : Option Arch
  planeCount : Option Nat
  planeMask : Option Nat
  rest : Config
deriving DecidableEq, Repr

/-- The configuration asked for: `rest`, with the dialect where one is known. -/
def BootRequest.config (r : BootRequest) : Config := { r.rest with arch := r.arch.getD r.rest.arch }

/-- Check (b) of R271: a requested plane count is NP, a requested mask fits in NP bits (log 13). -/
def planesOk (a : Arch) (r : BootRequest) : Bool :=
  (match r.planeCount with | none => true | some k => decide (k = a.planes)) &&
    (match r.planeMask with | none => true | some k => decide (k < 2 ^ a.planes))

/-- The configuration the host asked for, or the first check it fails, in the order (a), (b), (c) (R271; log 13). -/
def bootConfig (r : BootRequest) : Except BootCheck Config :=
  match r.arch with
  | none => .error .archValid
  | some a =>
    if planesOk a r = false then .error .planes
    else if r.rest.palette.length ≠ 2 ^ a.planes then .error .paletteSize
    else .ok r.config

/-- A machine a trap stopped during boot, with the port calls made until then. -/
def bootTrap (t : Trap) (s : State) (calls : List Output) : State := (takeTrap t s).setOut calls

/-- The boot sequence of R272, steps 1 to 4, given whether the Display port accepts `set_mode` and `set_palette` and the
Audio port `gate(off)`. A failed check traps before the first step and the machine never runs (R245); what such a
machine holds, the reset state of the configuration asked for and no port call, is the model's choice (log 22): the spec
checks before reset and gives it no state. a failing Display call traps, and no later call is made (R208, R243; log 14);
a failing Audio port is logged (R209). -/
def boot (r : BootRequest) (setModeOk paletteOk audioOk : Bool) : State :=
  match bootConfig r with
  | .error k => bootTrap (.configurationError k) (State.resetWith r.config) []
  | .ok c =>
    let s := (State.resetWith c).setPorts (setModeOk && paletteOk) audioOk
    if setModeOk = false then bootTrap .displayPortError s (s.out.take 1)
    else if paletteOk = false then bootTrap .displayPortError s (s.out.take 2)
    else if audioOk then s
    else s.setOut (s.out ++ [.logAudioFailure])

/-- Bytes placed in memory from address `a`: the host's load of fonts or of a program image (R66, R272 step 5). -/
def State.load (s : State) (a : Nat) (bytes : List Byte) : State := s.setMem (s.mem.writeBytes a bytes)

/-- "the ROM bytes are placed at 0x200" (R272). -/
def State.loadRom (s : State) (bytes : List Byte) : State := s.load 0x200 bytes

end Sys2Proof.Machine
end

