-- ==== Sys2Proof/Safety.lean ====
section
/-! DEFINITION. The invariant of the machine and what a safe run is, in the terms the statements use. -/

namespace Sys2Proof.Machine

/-- The framebuffer has NP planes, each of H rows of W pixels (R31, R32). -/
abbrev State.FbWf (s : State) : Prop :=
  s.blk.fb.length = s.cfg.arch.planes ∧ ∀ pl ∈ s.blk.fb, Plane.HasSize s.width s.height pl

/-- The invariant: memory canonical and inside MEMSIZE (R60); the framebuffer of the current geometry (R31); PM within
NP bits (R33), and 1 on the one-plane dialects (R107); HIRES 0 on chip8 and chip8hires (R32); VT at most 1, and VT and
WAIT 0 unless SPRITE_DELAY (R37, R39, R150); the gate value sent is the tone gate (R189). -/
structure State.Inv (s : State) : Prop where
  mem_wf : s.mem.wf
  mem_inside : ∀ c ∈ s.mem, c.1 < s.cfg.arch.memSize
  fb_wf : s.FbWf
  pm_range : s.blk.pm.toNat < 2 ^ s.cfg.arch.planes
  pm_one : s.cfg.arch.planes = 1 → s.blk.pm = 1#4
  hires_capable : s.blk.hires = true → s.cfg.arch.hiresCapable = true
  vt_small : s.blk.vt.toNat ≤ 1
  wait_off : s.cfg.spriteDelay = false → s.blk.wait = false ∧ s.blk.vt = 0#8
  gate_sent : s.gateSent = s.blk.toneGate

/-- `s` steps to `t`. -/
def Steps (s t : State) : Prop := step s = .next t

/-- `t` is reached from `s` by some number of steps. -/
inductive Reaches (s : State) : State → Prop
  | refl : Reaches s s
  | tail {t u : State} : Reaches s t → Steps t u → Reaches s u

/-- A safe run: whatever is reached from `s` is no trapped machine. -/
def State.Safe (s : State) : Prop := ∀ u, Reaches s u → ∀ t, u.life ≠ .trapped t

/-- Plane p's sprite inverts pixel (x, y): some 1 bit of it lands there (R146, R147). -/
def Lands (c : Config) (b : Block) (m : Memory) (i : Word) (x0 y0 : Nat) (g : Shape) (p y x : Nat) : Prop :=
  ∃ r k, r < g.rows ∧ k < g.width ∧ spriteBit c m g i p r k = true ∧
    target c.screenWrap (c.arch.width b.hires) (c.arch.height b.hires) (y0 + r) (x0 + k) = some (y, x)

end Sys2Proof.Machine
end

