-- ==== Sys2Proof/WellFormed.lean ====
section
/-! DEFINITION. What is checked of an instruction term. Operand ranges need no check: each field has exactly its
encoding's width (R81), and R87 gives every value of a free field a meaning ("No reserved sub-encodings"). What
is left is the dialect: 30_encoding R85, a command belongs to ARCH's language when ARCH accepts its group. -/

namespace Sys2Proof

/-- The group column of R84 (and of the opcode table for the context rows). -/
def Instr.group : Instr → Group
  | .cls => .base
  | .low => .schip
  | .high => .schip
  | .scr => .schip
  | .scl => .schip
  | .scd _ => .schip
  | .scu _ => .xo
  | .plane _ => .xo
  | .drw _ _ _ => .base
  | .ldVxDt _ => .base
  | .ldDtVx _ => .base
  | .ldStVx _ => .base
  | .ldVxNn _ _ => .cpu
  | .ldINnn _ => .cpu
  | .jp _ => .cpu
  | .seVxNn _ _ => .cpu
  | .sneVxNn _ _ => .cpu

/-- `i` is a term of dialect `a`: `a` accepts its group (R11, R85). -/
def Instr.wellFormedOn (a : Arch) (i : Instr) : Bool := a.accepts i.group

/-- A block command, one of the twelve rows of R84; the other five are the CPU's (R84, R86, 48_cpu_context). -/
def Instr.isBlockCommand (i : Instr) : Bool := i.group != .cpu

end Sys2Proof
end

