-- ==== Sys2Proof/Certificates/Slice0/Obligations.lean ====
section
/-! DEFINITION. The statements for the provers. Each docstring names the rules of spec/ it rests on; where a clause rests
on a decision the spec marks as its own (92 D<n>) or on a log entry of this model, the docstring says so. -/

namespace Sys2Proof.Machine

/-- What no instruction changes while the machine runs on: configuration, every byte of memory, the machine's life, the
coming turns and the ports' answers. -/
abbrev Frame (s t : State) : Prop :=
  t.cfg = s.cfg ∧ (∀ a, t.mem.read a = s.mem.read a) ∧ t.life = s.life ∧ t.schedule = s.schedule ∧
    t.displayOk = s.displayOk ∧ t.audioOk = s.audioOk

/-- Every V register is as it was. -/
abbrev VKept (s t : State) : Prop := ∀ r, t.getV r = s.getV r

/-- Every V register but `x` is as it was. -/
abbrev VKeptBut (x : RegIx) (s t : State) : Prop := ∀ r, r ≠ x → t.getV r = s.getV r

/-- A command step that completes: the frame, I as it was, PC past the word, and the gate value sent is the tone gate of
the block it leaves (R9; R189, the spec's decision D19). -/
abbrev Completed (s t : State) : Prop :=
  Frame s t ∧ t.cpu.i = s.cpu.i ∧ t.cpu.pc = s.cpu.pc + 2 ∧ t.gateSent = t.blk.toneGate

/-- Only the framebuffer of the block may differ. -/
abbrev OnlyFb (s t : State) : Prop := t.blk = { s.blk with fb := t.blk.fb }

/-- Nothing waits: DXYN completes in this step unless an address is out of range (R150, R249). -/
abbrev BlitReady (s : State) : Prop := s.cfg.spriteDelay = false ∨ (s.blk.wait = true ∧ s.blk.vt = 0#8)

/-- The address of byte b of row r of plane p's sprite, R145 written out: `i + p*sz + r*rb + b`. -/
abbrev spriteByteAddr (s : State) (n : Nibble) (p r b : Nat) : Nat :=
  s.cpu.i.toNat + p * ((spriteShape s.cfg s.blk n).rows * (spriteShape s.cfg s.blk n).rowBytes) +
    r * (spriteShape s.cfg s.blk n).rowBytes + b

/-- (p, r, b) names a byte the command reads: p selected, r a row, b a byte of the row (R145, R151). -/
abbrev SpriteByteIn (s : State) (n : Nibble) (p r b : Nat) : Prop :=
  selected s.cfg s.blk p = true ∧ r < (spriteShape s.cfg s.blk n).rows ∧ b < (spriteShape s.cfg s.blk n).rowBytes

/-- No address makes the command trap (R152). -/
abbrev BlitInRange (s : State) (n : Nibble) : Prop :=
  s.cfg.strictBlitIndex = false ∨ ∀ p r b, SpriteByteIn s n p r b → spriteByteAddr s n p r b < s.cfg.arch.memSize

/-- The sprite of `drw x y n` lands on pixel (col, row) of plane p in state s (R142, R146, R147). -/
abbrev LandsOn (s : State) (x y : RegIx) (n : Nibble) (p row col : Nat) : Prop :=
  Lands s.cfg s.blk s.mem s.cpu.i ((s.getV x).toNat % s.width) ((s.getV y).toNat % s.height) (spriteShape s.cfg s.blk n)
    p row col

/-- A byte of the packed framebuffer: byte k of row y of plane p (R69). -/
abbrev fbByte (s : State) (p y k : Nat) : Byte :=
  packedByte s.width (s.blk.fb.getD p []) (y * (s.width / 8) + k)

/-- The part of byte k of a row that one sprite byte `v`, shifted right by `x0 mod 8`, covers: its left part in byte
`x0 div 8`, its right part in the next; byte indices past the row's end are dropped when clipping and taken mod W/8 when
wrapping (R156). -/
def shiftedByte (wrap : Bool) (rowLen x0 : Nat) (v : Byte) (k : Nat) : Byte :=
  (if (if wrap then x0 / 8 % rowLen else x0 / 8) = k then v >>> (x0 % 8) else 0#8) |||
    (if (if wrap then (x0 / 8 + 1) % rowLen else x0 / 8 + 1) = k then v <<< (8 - x0 % 8) else 0#8)

/-- Byte k of the shifted sprite row r of plane p: one sprite byte, or two side by side for a 16-wide row (R156). -/
def shiftedRow (s : State) (x : RegIx) (n : Nibble) (p r k : Nat) : Byte :=
  shiftedByte s.cfg.screenWrap (s.width / 8) ((s.getV x).toNat % s.width)
      (spriteByte s.cfg s.mem (spriteShape s.cfg s.blk n) s.cpu.i p r 0) k |||
    (if (spriteShape s.cfg s.blk n).rowBytes = 1 then 0#8
     else shiftedByte s.cfg.screenWrap (s.width / 8) ((s.getV x).toNat % s.width + 8)
      (spriteByte s.cfg s.mem (spriteShape s.cfg s.blk n) s.cpu.i p r 1) k)

/-- The framebuffer row that sprite row r reaches, none where it is clipped (R147). -/
def targetRow (s : State) (y : RegIx) (r : Nat) : Option Nat :=
  if s.cfg.screenWrap then some (((s.getV y).toNat % s.height + r) % s.height)
  else if (s.getV y).toNat % s.height + r < s.height then some ((s.getV y).toNat % s.height + r) else none

/-- The next turn is a CPU cycle: none is listed, or one that is a cycle (log 2). -/
abbrev CycleComes (s : State) : Prop :=
  s.schedule = [] ∨ ∃ (d a : Bool) (rest : List Turn), s.schedule = { event := .cycle, displayOk := d, audioOk := a } :: rest

/-- The outputs of the tone gate's evaluation (R189, R209). -/
abbrev gateOutputs : List Output := [.gate true, .gate false, .logAudioFailure]

/-- A tick turn whose port calls succeed. -/
abbrev goodTick : Turn := { event := .tick, displayOk := true, audioOk := true }

/-- A CPU cycle turn whose port calls succeed. -/
abbrev goodCycle : Turn := { event := .cycle, displayOk := true, audioOk := true }

end Sys2Proof.Machine

open Sys2Proof Sys2Proof.Machine

/-! ### Encoding -/

/-- 30_encoding R80, R84, R87, R88; R221 to R225: the bytes of an instruction, with any bytes after them, decode to that
instruction and leave those bytes. -/
def Obligations.DecodeOfEncode : Prop :=
  ∀ (i : Instr) (rest : List Byte), decode (encode i ++ rest) = .ok (i, rest)

/-- R84, R87: the other direction; a word that decodes is the encoding of what it decodes to, so no two words share an
instruction and no bit of a word is dropped. -/
def Obligations.EncodeOfDecodedWord : Prop :=
  ∀ (w : Word) (i : Instr), decodeWord w = some i → encodeWord i = w

/-- R84 (and the context rows of R221 to R225): a word decodes to an instruction of a row exactly when it matches the
row's mask and match, for every word and every row of the table. As `decodeWord` is a function, no word is of two rows. -/
def Obligations.WordDecodesToRowItMatches : Prop :=
  ∀ (w : Word) (r : OpcodeRow), r ∈ opcodeTable → (r.hits w = true ↔ ∃ i, decodeWord w = some i ∧ i.row = r)

/-- R84: the words of a few rows, written out from the table. -/
def Obligations.SampleWordsDecode : Prop :=
  decodeWord 0x00E0#16 = some .cls ∧ decodeWord 0x00C5#16 = some (.scd 5#4) ∧ decodeWord 0xF901#16 = some (.plane 9#4) ∧
    decodeWord 0xD12F#16 = some (.drw 1 2 15#4) ∧ decodeWord 0xFA07#16 = some (.ldVxDt 10) ∧
    decodeWord 0xA2F0#16 = some (.ldINnn 0x2F0#12) ∧ decodeWord 0x3F01#16 = some (.seVxNn 15 1#8) ∧
    decodeWord 0x00EE#16 = none ∧ decodeWord 0x01E0#16 = none

/-! ### The step -/

/-- R220, R9: a running machine whose turn is a CPU cycle and whose word at PC lies in memory and decodes runs that
instruction; `exec` sees PC at the word and moves it itself. A listed turn is taken off the schedule first and its port
answers hold; with none listed nothing is added around `exec` (log 2). -/
def Obligations.StepRunsDecodedInstruction : Prop :=
  ∀ (s : State) (i : Instr), s.life = .running → s.cpu.pc + 1 < s.cfg.arch.memSize →
    decodeWord (wordOfBytes (s.mem.read s.cpu.pc) (s.mem.read (s.cpu.pc + 1))) = some i →
    (s.schedule = [] → step s = exec i s) ∧
    (∀ (d a : Bool) (rest : List Turn), s.schedule = { event := .cycle, displayOk := d, audioOk := a } :: rest →
      step s = exec i { s with schedule := rest, displayOk := d, audioOk := a })

/-- The model's stops (log 4, log 6, log 10, log 18): a stopped machine makes no step (R247, R258), a cycle, listed or not
(log 2), whose word does not lie in memory faults, and a word of no row is refused with its address. -/
def Obligations.StepStops : Prop :=
  (∀ (s : State) (t : Trap), s.life = .trapped t → step s = .fault (.machineTrapped t)) ∧
  (∀ s : State, s.life = .returned → step s = .fault .machineReturned) ∧
  (∀ s : State, s.life = .running → CycleComes s → s.cfg.arch.memSize ≤ s.cpu.pc + 1 →
    step s = .fault (.fetchOutOfRange s.cpu.pc)) ∧
  (∀ s : State, s.life = .running → CycleComes s → s.cpu.pc + 1 < s.cfg.arch.memSize →
    decodeWord (s.readWord s.cpu.pc) = none → step s = .refused (.wordOfNoRow (s.readWord s.cpu.pc) s.cpu.pc))

/-- Log 11: a word placed by `withFetchWord` is what the next step runs, in a machine with the block and the registers of
the one it was placed in. -/
def Obligations.PlacedWordRunsNext : Prop :=
  ∀ (s : State) (i : Instr), s.mem.wf → ∃ u : State,
    step (s.withFetchWord 16 (encodeWord i).toNat) = exec i u ∧ u.life = .running ∧ u.blk = s.blk ∧ u.cfg = s.cfg ∧
      u.cpu.i = s.cpu.i ∧ VKept s u ∧ decodeTableWord 16 (encodeWord i).toNat = some i

/-! ### Reset and boot -/

/-- R30 (column "reset"), R42, R220, R270, R272: what reset leaves, for every configuration. The values of HIRES, PM and
WAIT are the spec's decisions 92 D4, D5, D14; the order of the port calls is D18. -/
def Obligations.ResetValues : Prop :=
  ∀ c : Config, let s := State.resetWith c
    (∀ p y x, pixelAt s.blk.fb p y x = false) ∧ s.FbWf ∧ s.blk.hires = false ∧ s.blk.pm = 1#4 ∧ s.blk.dt = 0#8 ∧
      s.blk.st = 0#8 ∧ s.blk.vt = 0#8 ∧ s.blk.wait = false ∧ s.blk.toneGate = false ∧ s.gateSent = false ∧
      (∀ r, s.getV r = 0#8) ∧ s.cpu.i = 0#16 ∧ s.cpu.pc = 0x200 ∧ (∀ a, s.mem.read a = 0#8) ∧ s.life = .running ∧
      s.out = [.setMode 64 (if c.arch = .chip8hires then 64 else 32) c.arch.planes, .setPalette c.palette, .gate false]

/-- The invariant of the machine holds after reset, for every configuration. -/
def Obligations.ResetMeetsInvariant : Prop := ∀ c : Config, (State.resetWith c).Inv

/-- R245, R271 (92 D23; log 13): the boot checks, in the order (a), (b), (c); a machine that fails one is trapped before
its first step. -/
def Obligations.BootChecksConfiguration : Prop :=
  ∀ (r : BootRequest) (m p a : Bool),
    (r.arch = none → (boot r m p a).life = .trapped (.configurationError .archValid)) ∧
    (∀ A, r.arch = some A →
      ((∃ k, r.planeCount = some k ∧ k ≠ A.planes) ∨ (∃ k, r.planeMask = some k ∧ 2 ^ A.planes ≤ k) →
        (boot r m p a).life = .trapped (.configurationError .planes)) ∧
      ((∀ k, r.planeCount = some k → k = A.planes) → (∀ k, r.planeMask = some k → k < 2 ^ A.planes) →
        r.rest.palette.length ≠ 2 ^ A.planes → (boot r m p a).life = .trapped (.configurationError .paletteSize)))

/-- R270, R272 (92 D18): a boot that passes the checks with ports that answer gives the reset machine of the
configuration asked for. A Display port that fails `set_mode`, or accepts it and fails `set_palette`, traps there with
the block at reset (R208, R243; log 14); an Audio port that fails is logged and the machine runs (R209; log 15, log 20).
Which requests pass check (b), and that a mask asked for is only checked, so that PM is 1, is log 13. -/
def Obligations.BootSequence : Prop :=
  ∀ (r : BootRequest) (A : Arch), r.arch = some A → (∀ k, r.planeCount = some k → k = A.planes) →
    (∀ k, r.planeMask = some k → k < 2 ^ A.planes) → r.rest.palette.length = 2 ^ A.planes →
    boot r true true true = State.resetWith { r.rest with arch := A } ∧
    boot r true true false = { State.resetWith { r.rest with arch := A } with
      audioOk := false
      out := [.setMode (A.width false) (A.height false) A.planes, .setPalette r.rest.palette, .gate false,
        .logAudioFailure] } ∧
    (∀ p a, (boot r false p a).life = .trapped .displayPortError ∧
      (boot r false p a).blk = Block.reset { r.rest with arch := A } ∧
      (boot r false p a).out = [.setMode (A.width false) (A.height false) A.planes]) ∧
    (∀ a, (boot r true false a).life = .trapped .displayPortError ∧
      (boot r true false a).blk = Block.reset { r.rest with arch := A } ∧
      (boot r true false a).out = [.setMode (A.width false) (A.height false) A.planes, .setPalette r.rest.palette])

/-! ### Display control -/

/-- 40_display_control R100: 00E0 is CLS and no other word is; it completes in every state, on every dialect, and clears
exactly the pixels of the selected planes; with one plane and PM = 1 that is the whole framebuffer. PC past the word is
R9, the gate sent at the end R189 (D19). -/
def Obligations.ClsClearsSelectedPlanes : Prop :=
  (∀ w : Word, decodeWord w = some .cls ↔ w = 0x00E0#16) ∧
  ∀ s : State, ∃ t, exec .cls s = .next t ∧ Completed s t ∧ VKept s t ∧ OnlyFb s t ∧
    (∀ p y x, y < s.height → x < s.width →
      pixelAt t.blk.fb p y x = if selected s.cfg s.blk p then false else pixelAt s.blk.fb p y x) ∧
    (s.cfg.arch.planes = 1 → s.blk.pm = 1#4 → ∀ y x, y < s.height → x < s.width → pixelAt t.blk.fb 0 y x = false)

/-- R101, R102, R103, R204: LOW and HIGH set HIRES, clear every plane at the new geometry, keep the rest of the block, and
call `set_mode` with it. Which word is which, and that every plane is cleared always, are the spec's decisions D3, D7. -/
def Obligations.ModeChangeClearsAndReports : Prop :=
  ∀ (s : State) (hi : Bool), s.cfg.arch.accepts .schip = true → s.displayOk = true →
    ∃ t, exec (if hi then .high else .low) s = .next t ∧ Completed s t ∧ VKept s t ∧
      t.blk = { s.blk with hires := hi, fb := t.blk.fb } ∧ t.FbWf ∧ (∀ p y x, pixelAt t.blk.fb p y x = false) ∧
      t.width = (if hi then 128 else 64) ∧ t.height = (if hi then 64 else 32) ∧
      t.out.head? = some (.setMode t.width t.height s.cfg.arch.planes)

/-- R208, R243, R246 (D13, log 14): LOW and HIGH with a Display port that fails trap and leave the block and the registers
as they were; the gate is evaluated after this step too (R189, D19). -/
def Obligations.ModeChangeTrapsWhenDisplayFails : Prop :=
  ∀ (s : State) (hi : Bool), s.cfg.arch.accepts .schip = true → s.displayOk = false →
    ∃ t, exec (if hi then .high else .low) s = .next t ∧ t.life = .trapped .displayPortError ∧ t.blk = s.blk ∧
      VKept s t ∧ t.cpu.i = s.cpu.i ∧ t.gateSent = t.blk.toneGate ∧ ∀ a, t.mem.read a = s.mem.read a

/-- R106: Fn01 on the XO dialects sets PM to n mod 2^NP and nothing else of the block. The truncation is the spec's
decision D6. -/
def Obligations.PlaneSetsMask : Prop :=
  ∀ (n : Nibble) (s : State), s.cfg.arch.isXo = true →
    ∃ t, exec (.plane n) s = .next t ∧ Completed s t ∧ VKept s t ∧ t.blk = { s.blk with pm := t.blk.pm } ∧
      t.blk.pm.toNat = n.toNat % 2 ^ s.cfg.arch.planes

/-! ### Scrolls -/

/-- 41_scroll R120, R121, R123, R124, R127, R128: SCR and SCL move the target planes' pixels by kh and fill with 0. The
lo-res distance without LORES_DOUBLE is the spec's decision D8. -/
def Obligations.HorizontalScrollMovesPixels : Prop :=
  ∀ s : State, s.cfg.arch.accepts .schip = true → ∀ k : Nat,
    k = (if s.blk.hires then 4 else if s.cfg.loresDouble then 2 else 4) →
    (∃ t, exec .scr s = .next t ∧ Completed s t ∧ VKept s t ∧ OnlyFb s t ∧
      ∀ p y x, y < s.height → x < s.width → pixelAt t.blk.fb p y x =
        if scrollTarget s.cfg s.blk p then (if k ≤ x then pixelAt s.blk.fb p y (x - k) else false)
        else pixelAt s.blk.fb p y x) ∧
    (∃ t, exec .scl s = .next t ∧ Completed s t ∧ VKept s t ∧ OnlyFb s t ∧
      ∀ p y x, y < s.height → x < s.width → pixelAt t.blk.fb p y x =
        if scrollTarget s.cfg s.blk p then (if x + k < s.width then pixelAt s.blk.fb p y (x + k) else false)
        else pixelAt s.blk.fb p y x)

/-- R120, R122, R125, R126, R127, R128: SCD and SCU move the target planes' pixels by kv(n) and fill with 0; SCD needs the
SCHIP group, SCU the XO group (D2). Halving and rounding down under LORES_DOUBLE are the spec's decision D8. -/
def Obligations.VerticalScrollMovesPixels : Prop :=
  ∀ (s : State) (n : Nibble) (k : Nat),
    k = (if s.blk.hires then n.toNat else if s.cfg.loresDouble then n.toNat / 2 else n.toNat) →
    (s.cfg.arch.accepts .schip = true → ∃ t, exec (.scd n) s = .next t ∧ Completed s t ∧ VKept s t ∧ OnlyFb s t ∧
      ∀ p y x, y < s.height → x < s.width → pixelAt t.blk.fb p y x =
        if scrollTarget s.cfg s.blk p then (if k ≤ y then pixelAt s.blk.fb p (y - k) x else false)
        else pixelAt s.blk.fb p y x) ∧
    (s.cfg.arch.isXo = true → ∃ t, exec (.scu n) s = .next t ∧ Completed s t ∧ VKept s t ∧ OnlyFb s t ∧
      ∀ p y x, y < s.height → x < s.width → pixelAt t.blk.fb p y x =
        if scrollTarget s.cfg s.blk p then (if y + k < s.height then pixelAt s.blk.fb p (y + k) x else false)
        else pixelAt s.blk.fb p y x)

/-- R120: the planes a scroll writes are the selected ones on the XO dialects and every plane elsewhere (D9). -/
def Obligations.ScrollTargets : Prop :=
  ∀ (c : Config) (b : Block) (p : Nat), (scrollTarget c b p = true ↔
    p < c.arch.planes ∧ (c.arch.isXo = true → b.pm.getLsbD p = true))

/-- R127: down by k then up by k leaves the top H-k rows of a target plane as they were and its bottom k rows 0. -/
def Obligations.ScrollRoundTrip : Prop :=
  ∀ (s : State) (n : Nibble), s.cfg.arch.isXo = true → ∃ t u, exec (.scd n) s = .next t ∧ exec (.scu n) t = .next u ∧
    ∀ p y x, scrollTarget s.cfg s.blk p = true → y < s.height → x < s.width →
      pixelAt u.blk.fb p y x = if y + scrollV s.cfg s.blk n < s.height then pixelAt s.blk.fb p y x else false

/-! ### The blit -/

/-- 42_sprite_blit R140, R149, R150, R158, R160: a DXYN that need not wait and whose addresses are in range completes:
it writes VF with 0 or 1, only the framebuffer and WAIT (0 under SPRITE_DELAY, else untouched) of the block, and no other
register. -/
def Obligations.BlitCompletes : Prop :=
  ∀ (x y : RegIx) (n : Nibble) (s : State), BlitReady s → BlitInRange s n →
    ∃ t, exec (.drw x y n) s = .next t ∧ Completed s t ∧ VKeptBut 15 s t ∧ (t.getV 15 = 0#8 ∨ t.getV 15 = 1#8) ∧
      t.blk = { s.blk with fb := t.blk.fb, wait := t.blk.wait } ∧
      t.blk.wait = (if s.cfg.spriteDelay then false else s.blk.wait)

/-- R153: a completing blit inverts, in each selected plane, exactly the framebuffer pixels a visible 1 bit of the sprite
lands on; every other pixel, so every plane not selected, is as it was. The planes not selected are not read either:
another content of theirs gives the same registers and the same selected planes. -/
def Obligations.BlitInvertsLandedPixels : Prop :=
  ∀ (x y : RegIx) (n : Nibble) (s : State), s.FbWf → BlitReady s → BlitInRange s n →
    ∃ t, exec (.drw x y n) s = .next t ∧
      (∀ p row col, selected s.cfg s.blk p = true ∧ LandsOn s x y n p row col →
        pixelAt t.blk.fb p row col = !pixelAt s.blk.fb p row col) ∧
      (∀ p row col, ¬(selected s.cfg s.blk p = true ∧ LandsOn s x y n p row col) →
        pixelAt t.blk.fb p row col = pixelAt s.blk.fb p row col) ∧
      (∀ p, selected s.cfg s.blk p = false → t.blk.fb.getD p [] = s.blk.fb.getD p []) ∧
      (∀ fb : List Plane, fb.length = s.blk.fb.length →
        (∀ p, selected s.cfg s.blk p = true → fb.getD p [] = s.blk.fb.getD p []) →
        ∃ u, exec (.drw x y n) (s.setBlk { s.blk with fb := fb }) = .next u ∧ u.cpu = t.cpu ∧
          ∀ p, selected s.cfg s.blk p = true → u.blk.fb.getD p [] = t.blk.fb.getD p [])

/-- R154, R155: VF is 1 exactly when some visible 1 bit of the sprite lands, in some selected plane, on a pixel that was 1
before the command; one bit for all planes and rows. -/
def Obligations.BlitReportsCollision : Prop :=
  ∀ (x y : RegIx) (n : Nibble) (s : State), s.FbWf → BlitReady s → BlitInRange s n →
    ∃ t, exec (.drw x y n) s = .next t ∧
      (t.getV 15 = 1#8 ↔ ∃ p row col, selected s.cfg s.blk p = true ∧ LandsOn s x y n p row col ∧
        pixelAt s.blk.fb p row col = true) ∧ (t.getV 15 ≠ 1#8 → t.getV 15 = 0#8)

/-- R148: distinct sprite pixels of a plane land on distinct framebuffer pixels. -/
def Obligations.NoPixelHitTwice : Prop :=
  ∀ (c : Config) (b : Block) (n : Nibble) (y0 x0 r r' k k' : Nat) (q : Nat × Nat),
    r < (spriteShape c b n).rows → r' < (spriteShape c b n).rows →
    k < (spriteShape c b n).width → k' < (spriteShape c b n).width →
    target c.screenWrap (c.arch.width b.hires) (c.arch.height b.hires) (y0 + r) (x0 + k) = some q →
    target c.screenWrap (c.arch.width b.hires) (c.arch.height b.hires) (y0 + r') (x0 + k') = some q → r = r' ∧ k = k'

/-- R64, R65, R143, R144, R145, R146, R152: column k of row r of plane p is a bit of the byte at i + p*sz + r*rb + k div 8
(modulo MEMSIZE), bit 7 leftmost, so a 16-wide row's first byte is its left half. That p is the plane number is the
spec's decision D11, the byte order D12, the wrap D13, the shapes of n = 0 D10: 16 by 16 in hi-res and on the XO dialects,
no rows elsewhere. -/
def Obligations.SpriteBitsComeFromMemory : Prop :=
  ∀ (s : State) (n : Nibble) (p r k : Nat), k < (spriteShape s.cfg s.blk n).width →
    spriteBit s.cfg s.mem (spriteShape s.cfg s.blk n) s.cpu.i p r k =
      (s.mem.read (spriteByteAddr s n p r (k / 8) % s.cfg.arch.memSize)).getLsbD (7 - k % 8) ∧
    (n ≠ 0#4 → spriteShape s.cfg s.blk n = { width := 8, rows := n.toNat, rowBytes := 1 }) ∧
    (n = 0#4 → s.blk.hires = true ∨ s.cfg.arch.isXo = true →
      spriteShape s.cfg s.blk n = { width := 16, rows := 16, rowBytes := 2 }) ∧
    (n = 0#4 → s.blk.hires = false → s.cfg.arch.isXo = false →
      spriteShape s.cfg s.blk n = { width := 8, rows := 0, rowBytes := 1 })

/-- R145, R151 (D11, D13): a blit depends on memory only through the bytes at the addresses of its selected planes'
sprites; any other byte of memory, so the sprite of a plane not selected, may differ without a difference in the block,
the registers, the machine's life or what is sent out. -/
def Obligations.BlitReadsOnlySelectedSprites : Prop :=
  ∀ (x y : RegIx) (n : Nibble) (s : State) (m : Memory),
    (∀ p r b, SpriteByteIn s n p r b → m.read (spriteByteAddr s n p r b % s.cfg.arch.memSize) =
      s.mem.read (spriteByteAddr s n p r b % s.cfg.arch.memSize)) →
    ∃ t, exec (.drw x y n) s = .next t ∧ exec (.drw x y n) (s.setMem m) = .next (t.setMem m)

/-- R151, R152, R242, R246, R249 (D13): under STRICT_BLIT_INDEX a ready blit with an address past memory traps with the
first such address in plane, row, byte order, and changes no block state and no register. -/
def Obligations.StrictBlitTraps : Prop :=
  ∀ (x y : RegIx) (n : Nibble) (s : State), BlitReady s → s.cfg.strictBlitIndex = true →
    (∃ p r b, SpriteByteIn s n p r b ∧ s.cfg.arch.memSize ≤ spriteByteAddr s n p r b) →
    ∃ t p r b, exec (.drw x y n) s = .next t ∧ t.life = .trapped (.indexOutOfRange (spriteByteAddr s n p r b)) ∧
      SpriteByteIn s n p r b ∧ s.cfg.arch.memSize ≤ spriteByteAddr s n p r b ∧
      (∀ p' r' b', SpriteByteIn s n p' r' b' → p' < p ∨ p' = p ∧ (r' < r ∨ r' = r ∧ b' < b) →
        spriteByteAddr s n p' r' b' < s.cfg.arch.memSize) ∧
      spriteByteAddr s n p r b ≤ 0x1007E ∧ t.blk = s.blk ∧ VKept s t ∧ t.cpu.i = s.cpu.i ∧
      ∀ a, t.mem.read a = s.mem.read a

/-- R150, R158 (D14): under SPRITE_DELAY a DXYN that must wait draws nothing and writes no register; PC stays at its word
(R9). Arming sets WAIT and VT to 1; waiting changes nothing of the block. -/
def Obligations.DelayedBlitStalls : Prop :=
  ∀ (x y : RegIx) (n : Nibble) (s : State), s.cfg.spriteDelay = true →
    (s.blk.wait = false → ∃ t, exec (.drw x y n) s = .next t ∧ t.blk = { s.blk with wait := true, vt := 1#8 } ∧
      t.cpu = s.cpu ∧ Frame s t ∧ t.gateSent = t.blk.toneGate) ∧
    (s.blk.wait = true → s.blk.vt ≠ 0#8 → ∃ t, exec (.drw x y n) s = .next t ∧ t.blk = s.blk ∧ t.cpu = s.cpu ∧
      Frame s t ∧ t.gateSent = t.blk.toneGate)

/-- R150, R161, R279 (D14): armed, then a TICK, then re-executed, a delayed blit completes with the pixels and the
collision of the state it was armed in. -/
def Obligations.DelayedBlitCompletesAfterTick : Prop :=
  ∀ (x y : RegIx) (n : Nibble) (s : State) (rest : List Turn), s.life = .running → s.cfg.spriteDelay = true →
    s.blk.wait = false → BlitInRange s n → s.cpu.pc + 1 < s.cfg.arch.memSize →
    decodeWord (s.readWord s.cpu.pc) = some (.drw x y n) → s.schedule = goodCycle :: goodTick :: goodCycle :: rest →
    ∃ t, core.run 3 s = .next t ∧ t.blk.wait = false ∧ t.blk.vt = 0#8 ∧ t.cpu.pc = s.cpu.pc + 2 ∧
      (t.blk.fb, t.getV 15) = ((drawSprite s.cfg s.blk s.mem (s.getV x) (s.getV y) s.cpu.i n).1,
        collisionByte (drawSprite s.cfg s.blk s.mem (s.getV x) (s.getV y) s.cpu.i n).2) ∧
      VKeptBut 15 s t ∧ t.schedule = rest

/-- R147, R153, R154 (95 vector L1-2): the same blit twice gives the framebuffer back, and the second time VF says
whether the sprite landed anywhere. -/
def Obligations.BlitTwiceRestores : Prop :=
  ∀ (x y : RegIx) (n : Nibble) (s : State), s.FbWf → s.cfg.spriteDelay = false → BlitInRange s n → x ≠ 15 → y ≠ 15 →
    ∃ t u, exec (.drw x y n) s = .next t ∧ exec (.drw x y n) t = .next u ∧ u.blk = s.blk ∧
      (u.getV 15 = 1#8 ↔ ∃ p row col, selected s.cfg s.blk p = true ∧ LandsOn s x y n p row col ∧
        pixelAt t.blk.fb p row col = true)

/-- R156: the byte-level implementation is the per-pixel one. A completing blit XORs the shifted sprite row into the
packed bytes of every framebuffer row it reaches, and VF is 1 exactly when some old byte AND its shifted byte is not 0.
-/
def Obligations.ByteLevelBlitIsEquivalent : Prop :=
  ∀ (x y : RegIx) (n : Nibble) (s : State), s.FbWf → BlitReady s → BlitInRange s n →
    ∃ t, exec (.drw x y n) s = .next t ∧
      (∀ p r row k, selected s.cfg s.blk p = true → r < (spriteShape s.cfg s.blk n).rows → targetRow s y r = some row →
        k < s.width / 8 → fbByte t p row k = fbByte s p row k ^^^ shiftedRow s x n p r k) ∧
      (t.getV 15 = 1#8 ↔ ∃ p r row k, selected s.cfg s.blk p = true ∧ r < (spriteShape s.cfg s.blk n).rows ∧
        targetRow s y r = some row ∧ k < s.width / 8 ∧ fbByte s p row k &&& shiftedRow s x n p r k ≠ 0#8)

/-! ### Timers and TICK -/

/-- 43_timers R180: Fx07, and it alone, completes in every state, on every dialect: V[x] takes DT, and no other register
and nothing of the block changes. PC past the word is R9, the gate sent at the end R189 (D19). -/
def Obligations.ReadDelayTimer : Prop :=
  ∀ (x : RegIx) (s : State), (∀ w, decodeWord w = some (.ldVxDt x) ↔ w = wordOfNibbles 0xF#4 (nibbleOf x) 0x0#4 0x7#4) ∧
    ∃ t, exec (.ldVxDt x) s = .next t ∧ Completed s t ∧ t.getV x = s.blk.dt ∧ VKeptBut x s t ∧ t.blk = s.blk

/-- R181: Fx15, and it alone, completes in every state, on every dialect: DT takes V[x], and no register and nothing
else of the block changes. PC past the word is R9, the gate sent at the end R189 (D19). -/
def Obligations.WriteDelayTimer : Prop :=
  ∀ (x : RegIx) (s : State), (∀ w, decodeWord w = some (.ldDtVx x) ↔ w = wordOfNibbles 0xF#4 (nibbleOf x) 0x1#4 0x5#4) ∧
    ∃ t, exec (.ldDtVx x) s = .next t ∧ Completed s t ∧ VKept s t ∧ t.blk = { s.blk with dt := s.getV x }

/-- R182: Fx18, and it alone, completes in every state, on every dialect: ST takes V[x], no register and nothing else of
the block changes, and the gate is on at the end of the step exactly when V[x] is not 0. PC past the word is R9, the
gate R189 (D19). -/
def Obligations.WriteSoundTimer : Prop :=
  ∀ (x : RegIx) (s : State), (∀ w, decodeWord w = some (.ldStVx x) ↔ w = wordOfNibbles 0xF#4 (nibbleOf x) 0x1#4 0x8#4) ∧
    ∃ t, exec (.ldStVx x) s = .next t ∧ Completed s t ∧ VKept s t ∧ t.blk = { s.blk with st := s.getV x } ∧
      (t.gateSent = true ↔ s.getV x ≠ 0#8)

/-- R186, and R250 (log 14) where `present` fails: the TICK, which is the turn taken (log 2), takes 1 from every timer
that is not 0 (natural subtraction stops at 0) and writes nothing else in the block, and no register and no memory. -/
def Obligations.TickDecrementsTimers : Prop :=
  ∀ (s : State) (d a : Bool) (rest : List Turn), s.life = .running →
    s.schedule = { event := .tick, displayOk := d, audioOk := a } :: rest →
    ∃ t, step s = .next t ∧ t.blk.dt.toNat = s.blk.dt.toNat - 1 ∧ t.blk.st.toNat = s.blk.st.toNat - 1 ∧
      t.blk.vt.toNat = s.blk.vt.toNat - 1 ∧ t.blk = { s.blk with dt := t.blk.dt, st := t.blk.st, vt := t.blk.vt } ∧
      t.cpu = s.cpu ∧ t.cfg = s.cfg ∧ (∀ b, t.mem.read b = s.mem.read b) ∧ t.schedule = rest

/-- R187, R189, R202, R206 (D17, D19): a TICK presents the whole framebuffer once, as the last command left it, then the
gate follows ST; where `present` fails the machine traps after the decrement (R243, R250; log 14) and the gate is
evaluated as after every TICK. A gate call counts as sent whatever the Audio port answers (log 15). -/
def Obligations.TickPresentsThenGates : Prop :=
  ∀ (s : State) (d a : Bool) (rest : List Turn), s.life = .running →
    s.schedule = { event := .tick, displayOk := d, audioOk := a } :: rest → ∃ t, step s = .next t ∧
    t.out.head? = some (.present s.bitmaps { x := 0, y := 0, width := s.width, height := s.height }) ∧
    (∀ bms r, Output.present bms r ∉ t.out.tail) ∧
    t.gateSent = decide (1 < s.blk.st.toNat) ∧
    (∀ on, Output.gate on ∈ t.out ↔ on = decide (1 < s.blk.st.toNat) ∧ s.gateSent ≠ on) ∧
    (d = true → t.life = .running) ∧ (d = false → t.life = .trapped .displayPortError)

/-- R186, R190: after k TICKs with nothing between them each timer has lost k, or reached 0, and the gate is on exactly
while ST is above 0: the framebuffer, PM, HIRES, WAIT and the CPU are as they were. -/
def Obligations.TicksCountDown : Prop :=
  ∀ (k : Nat) (s : State) (rest : List Turn), s.life = .running → s.schedule = List.replicate k goodTick ++ rest →
    ∃ t, core.run k s = .next t ∧ t.blk.dt.toNat = s.blk.dt.toNat - k ∧ t.blk.st.toNat = s.blk.st.toNat - k ∧
      t.blk.vt.toNat = s.blk.vt.toNat - k ∧ t.blk = { s.blk with dt := t.blk.dt, st := t.blk.st, vt := t.blk.vt } ∧
      t.cpu = s.cpu ∧ t.mem = s.mem ∧ t.schedule = rest ∧ t.life = .running ∧
      (0 < k → t.gateSent = decide (k < s.blk.st.toNat))

/-- R207, R258: a stop request presents once more, the whole screen (D17), changes no block state and no register, and the
machine returns: no trap, and no step after it. Where that `present` fails the machine traps instead of returning (R243;
log 18). -/
def Obligations.StopPresentsAndReturns : Prop :=
  ∀ (s : State) (d a : Bool) (rest : List Turn), s.life = .running →
    s.schedule = { event := .stop, displayOk := d, audioOk := a } :: rest →
    ∃ t, step s = .next t ∧ t.blk = s.blk ∧ t.cpu = s.cpu ∧ t.mem = s.mem ∧
      t.out = [.present s.bitmaps { x := 0, y := 0, width := s.width, height := s.height }] ∧
      (d = true → t.life = .returned ∧ step t = .fault .machineReturned) ∧
      (d = false → t.life = .trapped .displayPortError ∧ step t = .fault (.machineTrapped .displayPortError))

/-- R189 (D19; log 15): after every command step, one that traps included, the gate value sent is the tone gate, and
`gate(on)` is called in that step exactly when it differs from the last value sent. -/
def Obligations.GateFollowsSoundTimer : Prop :=
  ∀ (i : Instr) (s t : State), i.isBlockCommand = true → exec i s = .next t →
    t.gateSent = t.blk.toneGate ∧
    ∀ on, Output.gate on ∈ t.out ↔ on = t.blk.toneGate ∧ on ≠ s.gateSent

/-- R183: no command reads ST or VT. Two states that differ in ST, and in VT where the command is no DXYN under
SPRITE_DELAY, answer every instruction with the same registers, memory, life and block, ST and VT aside (each
keeps its own value or takes the same new one), and with the same outputs but for the tone gate's. -/
def Obligations.NoCommandReadsSoundOrVideoTimer : Prop :=
  ∀ (i : Instr) (s : State) (st vt : Byte),
    (vt = s.blk.vt ∨ s.cfg.spriteDelay = false ∨ ∀ x y n, i ≠ .drw x y n) →
    ∃ t u, exec i s = .next t ∧ exec i (s.setBlk { s.blk with st := st, vt := vt }) = .next u ∧
      u.cpu = t.cpu ∧ u.mem = t.mem ∧ u.life = t.life ∧ u.blk = { t.blk with st := u.blk.st, vt := u.blk.vt } ∧
      (u.blk.st = st ∨ u.blk.st = t.blk.st) ∧ (u.blk.vt = vt ∨ u.blk.vt = t.blk.vt) ∧
      u.out.filter (fun o => o ∉ gateOutputs) = t.out.filter (fun o => o ∉ gateOutputs)

/-- R209, R189: a step whose `gate` call the Audio port fails is the same step, timers and all, with one log line more:
the log line stands in it exactly when it makes a `gate` call. That a failed `gate` call counts as sent is log 15, that
the log line is an output log 20, both the model's choice. -/
def Obligations.AudioFailureIsLoggedOnly : Prop :=
  ∀ (s t : State) (e : Event) (d : Bool) (rest : List Turn),
    s.schedule = { event := e, displayOk := d, audioOk := true } :: rest → step s = .next t →
    ∃ u, step (s.setSchedule ({ event := e, displayOk := d, audioOk := false } :: rest)) = .next u ∧
      u = { t with audioOk := false, out := u.out } ∧ Output.logAudioFailure ∉ t.out ∧
      u.out.filter (· ≠ .logAudioFailure) = t.out ∧ (Output.logAudioFailure ∈ u.out ↔ ∃ on, Output.gate on ∈ t.out)

/-! ### The CPU context -/

/-- 48_cpu_context R221: 6xNN loads V[x] with NN and changes nothing else but PC. PC past the word is R220. That no gate
is evaluated is log 17, read from R189 by inference. -/
def Obligations.LoadImmediate : Prop :=
  ∀ (x : RegIx) (nn : Byte) (s : State), ∃ t, exec (.ldVxNn x nn) s = .next t ∧ Frame s t ∧ t.blk = s.blk ∧
    t.getV x = nn ∧ VKeptBut x s t ∧ t.cpu.i = s.cpu.i ∧ t.cpu.pc = s.cpu.pc + 2 ∧ t.gateSent = s.gateSent

/-- R222: Annn, and it alone, loads I with the zero-extended op[11:0] and changes nothing else but PC. PC past the word
is R220. That no gate is evaluated is log 17, read from R189 by inference. -/
def Obligations.LoadIndex : Prop :=
  ∀ (nnn : Addr12) (s : State), (∀ w, decodeWord w = some (.ldINnn nnn) ↔ w = 0xA#4 ++ nnn) ∧
    ∃ t, exec (.ldINnn nnn) s = .next t ∧ Frame s t ∧ t.blk = s.blk ∧
      VKept s t ∧ t.cpu.i.toNat = nnn.toNat ∧ t.cpu.pc = s.cpu.pc + 2 ∧ t.gateSent = s.gateSent

/-- R223: 1nnn, and it alone, sets PC to op[11:0] and changes nothing else; a jump to its own address leaves the CPU as
it was. That no gate is evaluated is log 17, read from R189 by inference. -/
def Obligations.JumpSetsPc : Prop :=
  ∀ (nnn : Addr12) (s : State), (∀ w, decodeWord w = some (.jp nnn) ↔ w = 0x1#4 ++ nnn) ∧
    ∃ t, exec (.jp nnn) s = .next t ∧ Frame s t ∧ t.blk = s.blk ∧
      VKept s t ∧ t.cpu.i = s.cpu.i ∧ t.cpu.pc = nnn.toNat ∧ t.gateSent = s.gateSent ∧
      (nnn.toNat = s.cpu.pc → t.cpu = s.cpu)

/-- R224, R225: SE and SNE skip the next word when V[x] equals (differs from) NN; past F000 the skip is two words. The
conditions are the spec's general knowledge (93 K3, K4), the length is log 9, and a next word past memory is the free
value of log 8. PC past the word is R220. That no gate is evaluated is log 17, read from R189 by inference. -/
def Obligations.SkipsOnComparison : Prop :=
  ∀ (x : RegIx) (nn : Byte) (s : State) (eq : Bool), ∃ t, exec (if eq then .seVxNn x nn else .sneVxNn x nn) s = .next t ∧
    Frame s t ∧ t.blk = s.blk ∧ t.cpu.v = s.cpu.v ∧ t.cpu.i = s.cpu.i ∧ t.gateSent = s.gateSent ∧
    ((s.getV x = nn ↔ eq = false) → t.cpu.pc = s.cpu.pc + 2) ∧
    ((s.getV x = nn ↔ eq = true) → s.cpu.pc + 3 < s.cfg.arch.memSize →
      t.cpu.pc = s.cpu.pc + 2 + (if s.readWord (s.cpu.pc + 2) = 0xF000#16 then 4 else 2)) ∧
    ((s.getV x = nn ↔ eq = true) → s.cfg.arch.memSize ≤ s.cpu.pc + 3 → t.cpu.pc = s.cpu.pc + 4 ∨ t.cpu.pc = s.cpu.pc + 6)

/-! ### The framebuffer reader -/

/-- 20_memory R69, R200: there is one bitmap for each plane p < NP, of H*W/8 bytes, and pixel (x, y) of plane p is bit
7 - (x mod 8) of byte y*(W/8) + x div 8 of it. -/
def Obligations.PackedBitmapLayout : Prop :=
  ∀ s : State, s.bitmaps.length = s.cfg.arch.planes ∧ ∀ p, p < s.cfg.arch.planes → ∃ bm, s.bitmaps[p]? = some bm ∧
    bm.length = s.height * s.width / 8 ∧ ∀ y x, y < s.height → x < s.width →
      (bm.getD (y * (s.width / 8) + x / 8) 0#8).getLsbD (7 - x % 8) = pixelAt s.blk.fb p y x

/-- R201: the colour index is below 2^NP and its bit p is the pixel of plane p. Plane 0 as bit 0 is the spec's decision
D15. -/
def Obligations.ColourIndexBits : Prop :=
  ∀ (s : State) (x y : Nat), s.colourIndex x y < 2 ^ s.cfg.arch.planes ∧
    ∀ p, p < s.cfg.arch.planes → (s.colourIndex x y).testBit p = pixelAt s.blk.fb p y x

/-! ### Whole-machine rules -/

/-- R241, R244, R246 (D2, D13, D22): a command ARCH does not accept changes nothing of the block, no register and no
memory; the CPU raises InvalidOpcode with the word and its address, or under DEBUG_SKIP logs the word and skips it. The
gate is evaluated either way (R189, D19). That the log line is an output with word and address is the model's choice
(log 20). -/
def Obligations.UnacceptedCommandIsInvalid : Prop :=
  ∀ (i : Instr) (s : State), i.wellFormedOn s.cfg.arch = false → ∃ t, exec i s = .next t ∧ t.blk = s.blk ∧ VKept s t ∧
    t.cpu.i = s.cpu.i ∧ (∀ a, t.mem.read a = s.mem.read a) ∧ t.cfg = s.cfg ∧ t.schedule = s.schedule ∧
    t.gateSent = t.blk.toneGate ∧
    (s.cfg.debugSkip = false → t.life = .trapped (.invalidOpcode (encodeWord i) s.cpu.pc)) ∧
    (s.cfg.debugSkip = true → t.life = s.life ∧ t.cpu.pc = s.cpu.pc + 2 ∧
      t.out.head? = some (.logSkipped (encodeWord i) s.cpu.pc))

/-- R11, R84, R85, R241 (D2, D26): which dialect accepts which row, and no accepted command ever raises InvalidOpcode or
is skipped. -/
def Obligations.AcceptedCommandIsNeverInvalid : Prop :=
  (∀ (i : Instr) (A : Arch), i.wellFormedOn A = false ↔
    ((i = .low ∨ i = .high ∨ i = .scr ∨ i = .scl ∨ ∃ n, i = .scd n) ∧ (A = .chip8 ∨ A = .chip8hires)) ∨
    ((∃ n, i = .scu n ∨ i = .plane n) ∧ A ≠ .xochip ∧ A ≠ .xochip16)) ∧
  ∀ (i : Instr) (s t : State), s.life = .running → i.wellFormedOn s.cfg.arch = true → exec i s = .next t →
    (∀ w pc, t.life ≠ .trapped (.invalidOpcode w pc)) ∧ ∀ w pc, Output.logSkipped w pc ∉ t.out

/-- R87, R249: no instruction of the table is without an effect: in every state, with every operand, `exec` answers a next
state; the model's stops are in `step` alone. -/
def Obligations.EveryInstructionAnswersNext : Prop := ∀ (i : Instr) (s : State), ∃ t, exec i s = .next t

/-- R60, R41: no step of any kind writes main memory or the configuration. -/
def Obligations.NoStepWritesMemoryOrConfig : Prop :=
  ∀ s t : State, step s = .next t → t.mem = s.mem ∧ t.cfg = s.cfg

/-- R30 (column "written by"), R33, R37, R39, R150, R192: which instruction may change which piece of block state. -/
def Obligations.WhoWritesBlockState : Prop :=
  ∀ (i : Instr) (s t : State), exec i s = .next t →
    (t.blk.pm ≠ s.blk.pm → ∃ n, i = .plane n) ∧
    (t.blk.hires ≠ s.blk.hires → i = .low ∨ i = .high) ∧
    (t.blk.dt ≠ s.blk.dt → ∃ x, i = .ldDtVx x) ∧
    (t.blk.st ≠ s.blk.st → ∃ x, i = .ldStVx x) ∧
    (t.blk.vt ≠ s.blk.vt ∨ t.blk.wait ≠ s.blk.wait → s.cfg.spriteDelay = true ∧ ∃ x y n, i = .drw x y n) ∧
    (t.blk.fb ≠ s.blk.fb → i = .cls ∨ i = .low ∨ i = .high ∨ i = .scr ∨ i = .scl ∨ (∃ n, i = .scd n) ∨
      (∃ n, i = .scu n) ∨ ∃ x y n, i = .drw x y n)

/-- R12, R42, R43, R221, R222: which instruction may change which register: Fx07 and 6xNN their own V[x], a blit VF, Annn
I. -/
def Obligations.WhoWritesRegisters : Prop :=
  ∀ (i : Instr) (s t : State), exec i s = .next t →
    (∀ r, t.getV r ≠ s.getV r → i = .ldVxDt r ∨ (∃ nn, i = .ldVxNn r nn) ∨ (r = 15 ∧ ∃ x y n, i = .drw x y n)) ∧
    (t.cpu.i ≠ s.cpu.i → ∃ nnn, i = .ldINnn nnn)

/-- R246 (D13): a command step that traps a running machine changes no block state, no register but PC and no memory, so
the gate's evaluation (R189, D19) calls nothing where the value sent was the tone gate. -/
def Obligations.TrapsArePrecise : Prop :=
  ∀ (i : Instr) (s t : State) (k : Trap), s.life = .running → exec i s = .next t → t.life = .trapped k →
    t.blk = s.blk ∧ t.cpu.v = s.cpu.v ∧ t.cpu.i = s.cpu.i ∧ t.mem = s.mem ∧ t.gateSent = t.blk.toneGate ∧
      (s.gateSent = s.blk.toneGate → ∀ on, Output.gate on ∉ t.out)

/-- R240: a running machine's command step raises only these kinds, with these codes, and each only for its cause. -/
def Obligations.TrapKindsAndCauses : Prop :=
  ∀ (i : Instr) (s t : State) (k : Trap), s.life = .running → exec i s = .next t → t.life = .trapped k →
    (k = .invalidOpcode (encodeWord i) s.cpu.pc ∧ k.code = 0 ∧ i.wellFormedOn s.cfg.arch = false ∧
      s.cfg.debugSkip = false) ∨
    (∃ a, k = .indexOutOfRange a ∧ k.code = 1 ∧ s.cfg.arch.memSize ≤ a ∧ s.cfg.strictBlitIndex = true ∧
      ∃ x y n, i = .drw x y n) ∨
    (k = .displayPortError ∧ k.code = 2 ∧ s.displayOk = false ∧ (i = .low ∨ i = .high))

/-- R202, R204, R205 (D16, D18): no instruction presents or sets the palette; only LOW and HIGH call `set_mode`. -/
def Obligations.WhoCallsTheDisplay : Prop :=
  ∀ (i : Instr) (s t : State), exec i s = .next t →
    (∀ bms r, Output.present bms r ∉ t.out) ∧ (∀ cs, Output.setPalette cs ∉ t.out) ∧
    ∀ w h np, Output.setMode w h np ∈ t.out → i = .low ∨ i = .high

/-- R7, R31, R32, R33, R37, R39, R60, R107, R150, R189: every step keeps the invariant of the machine (Safety.lean), in
every state that meets it, whatever the configuration, the program and the schedule. -/
def Obligations.StepKeepsInvariant : Prop := ∀ s t : State, s.Inv → step s = .next t → t.Inv

/-- R146, R153 ("Planes not in S are not read or written"), R100, R120: what the planes that are not selected hold makes
no difference: two states that agree but for those planes answer every instruction with the same registers, life and
outputs, and with the same contents of the planes that were selected. -/
def Obligations.UnselectedPlanesDoNotInterfere : Prop :=
  ∀ (i : Instr) (s : State) (fb : List Plane), fb.length = s.blk.fb.length →
    (∀ p, selected s.cfg s.blk p = true → fb.getD p [] = s.blk.fb.getD p []) →
    ∃ t u, exec i s = .next t ∧ exec i (s.setBlk { s.blk with fb := fb }) = .next u ∧
      u.cpu = t.cpu ∧ u.life = t.life ∧ u.out = t.out ∧ u.gateSent = t.gateSent ∧
      u.blk = { t.blk with fb := u.blk.fb } ∧
      ∀ p, selected s.cfg s.blk p = true → u.blk.fb.getD p [] = t.blk.fb.getD p []

/-- Of the traps of R240, R241, R242, R243, taken together, and of the instructions of the opcode table: an XO machine
that is not strict and whose Display port always answers never traps, however many TICKs come. A word of no row, on
which the CPU may trap, ends the run with a refusal (log 10), and a fetch outside memory, fatal in R242's source
sentence, with a fault (log 6): the claim says nothing beyond them. -/
def Obligations.LenientXoMachineNeverTraps : Prop :=
  ∀ s : State, s.life = .running → s.cfg.arch.isXo = true → s.cfg.strictBlitIndex = false → s.displayOk = true →
    (∀ t ∈ s.schedule, t.displayOk = true) → s.Safe
end

