-- ==== Sys2Proof/Laws/Framebuffer.lean ====
section
/-! SUPPORT. Planes and pixels: what a built plane, a rewritten set of planes and an inverted pixel read as, and that
each operation keeps the size of a plane. -/

namespace Sys2Proof.Machine

@[simp] theorem Plane.bit_build (w h : Nat) (f : Nat → Nat → Bool) (y x : Nat) :
    (Plane.build w h f).bit y x = if y < h ∧ x < w then f y x else false := by
  unfold Plane.bit Plane.build
  by_cases hy : y < h <;> by_cases hx : x < w <;> simp [List.getD, hy, hx]

theorem Plane.build_hasSize (w h : Nat) (f : Nat → Nat → Bool) : Plane.HasSize w h (Plane.build w h f) := by
  constructor
  · simp [Plane.build]
  · intro row hrow
    obtain ⟨y, -, rfl⟩ := List.mem_map.mp hrow
    simp

@[simp] theorem Plane.bit_blank (w h y x : Nat) : (Plane.blank w h).bit y x = false := by
  unfold Plane.bit Plane.blank
  by_cases hy : y < h <;> by_cases hx : x < w <;> simp [List.getD, hy, hx]

theorem Plane.blank_hasSize (w h : Nat) : Plane.HasSize w h (Plane.blank w h) := by
  constructor
  · simp [Plane.blank]
  · intro row hrow
    rw [List.eq_of_mem_replicate hrow]; simp

@[simp] theorem Plane.bit_nil (y x : Nat) : Plane.bit [] y x = false := rfl

/-- Planes of one size that read alike are equal. -/
theorem Plane.ext_of_bit {w h : Nat} {pl pl' : Plane} (hs : Plane.HasSize w h pl) (hs' : Plane.HasSize w h pl')
    (hb : ∀ y x, y < h → x < w → pl.bit y x = pl'.bit y x) : pl = pl' := by
  apply List.ext_getElem (by rw [hs.1, hs'.1])
  intro y hy hy'
  apply List.ext_getElem (by rw [hs.2 _ (List.getElem_mem hy), hs'.2 _ (List.getElem_mem hy')])
  intro x hx hx'
  have := hb y x (hs.1 ▸ hy) (hs.2 _ (List.getElem_mem hy) ▸ hx)
  simpa [Plane.bit, List.getD, hy, hy', hx, hx'] using this

@[simp] theorem length_mapPlanes (sel : Nat → Bool) (f : Plane → Plane) (fb : List Plane) :
    (mapPlanes sel f fb).length = fb.length := by simp [mapPlanes]

theorem getD_mapPlanes (sel : Nat → Bool) (f : Plane → Plane) (fb : List Plane) (p : Nat) :
    (mapPlanes sel f fb).getD p [] = if p < fb.length ∧ sel p = true then f (fb.getD p []) else fb.getD p [] := by
  by_cases hp : p < fb.length <;> by_cases hs : sel p = true <;> simp [mapPlanes, List.getD, hp, hs]

theorem pixelAt_mapPlanes (sel : Nat → Bool) (f : Plane → Plane) (fb : List Plane) (p y x : Nat) :
    pixelAt (mapPlanes sel f fb) p y x =
      if p < fb.length ∧ sel p = true then (f (fb.getD p [])).bit y x else pixelAt fb p y x := by
  unfold pixelAt; rw [getD_mapPlanes]; split <;> rfl

theorem mapPlanes_hasSize {sel : Nat → Bool} {f : Plane → Plane} {fb : List Plane} {w h : Nat}
    (hfb : ∀ pl ∈ fb, Plane.HasSize w h pl) (hf : ∀ pl, Plane.HasSize w h (f pl)) :
    ∀ pl ∈ mapPlanes sel f fb, Plane.HasSize w h pl := by
  intro pl hpl
  obtain ⟨p, hp, rfl⟩ := List.mem_mapIdx.mp hpl
  split
  · exact hf _
  · exact hfb _ (List.getElem_mem hp)

theorem getD_of_hasSize {fb : List Plane} {w h p : Nat} (hfb : ∀ pl ∈ fb, Plane.HasSize w h pl) (hp : p < fb.length) :
    Plane.HasSize w h (fb.getD p []) := by
  rw [List.getD_eq_getElem _ _ hp]; exact hfb _ (List.getElem_mem hp)

/-! ### Inverting a pixel -/

@[simp] theorem length_invertPixel (fb : List Plane) (p y x : Nat) : (invertPixel fb p y x).length = fb.length := by
  simp [invertPixel]

theorem invertPixel_hasSize {fb : List Plane} {w h : Nat} (hfb : ∀ pl ∈ fb, Plane.HasSize w h pl) (p y x : Nat) :
    ∀ pl ∈ invertPixel fb p y x, Plane.HasSize w h pl := by
  intro pl hpl
  obtain ⟨q, hq, rfl⟩ := List.mem_iff_getElem.mp hpl
  have hq' : q < fb.length := by simpa using hq
  have hsz := hfb _ (List.getElem_mem hq')
  simp only [invertPixel, List.getElem_modify]
  split
  · refine ⟨by simp [hsz.1], fun row hrow => ?_⟩
    obtain ⟨r, hr, rfl⟩ := List.mem_iff_getElem.mp hrow
    have hr' : r < fb[q].length := by simpa using hr
    simp only [List.getElem_modify]
    split
    · simp [hsz.2 _ (List.getElem_mem hr')]
    · exact hsz.2 _ (List.getElem_mem hr')
  · exact hsz

theorem getD_modify {α : Type} (l : List α) (i j : Nat) (f : α → α) (d : α) :
    (l.modify i f).getD j d = if i = j ∧ j < l.length then f (l.getD j d) else l.getD j d := by
  by_cases hj : j < l.length
  · simp only [List.getD_eq_getElem?_getD, List.getElem?_modify, List.getElem?_eq_getElem hj]
    by_cases hi : i = j <;> simp [hi, hj]
  · simp [List.getD, hj]

/-- Inverting an existing pixel inverts it and no other. -/
theorem pixelAt_invertPixel {fb : List Plane} {w h : Nat} (hfb : ∀ pl ∈ fb, Plane.HasSize w h pl) {p y x : Nat}
    (hp : p < fb.length) (hy : y < h) (hx : x < w) (q v u : Nat) :
    pixelAt (invertPixel fb p y x) q v u = ((pixelAt fb q v u) ^^ decide ((q, v, u) = (p, y, x))) := by
  unfold pixelAt Plane.bit invertPixel
  rw [getD_modify]
  by_cases hq : p = q
  · subst hq
    have hsz := getD_of_hasSize hfb hp
    rw [if_pos ⟨rfl, hp⟩, getD_modify]
    by_cases hv : y = v
    · subst hv
      rw [if_pos ⟨rfl, by rw [hsz.1]; exact hy⟩, getD_modify]
      have hrow : ((fb.getD p []).getD y []).length = w := by
        have hy' : y < (fb.getD p []).length := by rw [hsz.1]; exact hy
        rw [List.getD_eq_getElem _ _ hy']; exact hsz.2 _ (List.getElem_mem _)
      by_cases hu : x = u
      · subst hu; rw [if_pos ⟨rfl, by rw [hrow]; exact hx⟩]; simp
      · rw [if_neg (fun hc => hu hc.1)]; simp [Ne.symm hu]
    · rw [if_neg (fun hc => hv hc.1)]; simp [Ne.symm hv]
  · rw [if_neg (fun hc => hq hc.1)]; simp [Ne.symm hq]

/-- Inverting a pixel of a plane leaves the other planes. -/
theorem getD_invertPixel_other {fb : List Plane} {p q y x : Nat} (h : p ≠ q) :
    (invertPixel fb p y x).getD q [] = fb.getD q [] := by
  unfold invertPixel; rw [getD_modify, if_neg fun hc => h hc.1]

/-- Framebuffers of one size that read alike are equal. -/
theorem fb_ext {fb fb' : List Plane} {w h : Nat} (hl : fb.length = fb'.length)
    (hs : ∀ pl ∈ fb, Plane.HasSize w h pl) (hs' : ∀ pl ∈ fb', Plane.HasSize w h pl)
    (hp : ∀ p y x, pixelAt fb p y x = pixelAt fb' p y x) : fb = fb' := by
  apply List.ext_getElem hl
  intro p hp1 hp2
  refine Plane.ext_of_bit (hs _ (List.getElem_mem hp1)) (hs' _ (List.getElem_mem hp2)) fun y x _ _ => ?_
  simpa [pixelAt, List.getD, hp1, hp2] using hp p y x

end Sys2Proof.Machine
end

