-- ==== Sys2Proof/Laws/Blit.lean ====
section
/-! SUPPORT. The blit: which pixels the sprite hits, that none is hit twice (R148), and what drawing a list of pixels
does to the framebuffer and to the collision bit. -/

namespace Sys2Proof.Machine

/-! ### Drawing a list of pixels -/

theorem blitPixels_cons (fb : List Plane) (h : Nat × Nat × Nat) (hits : List (Nat × Nat × Nat)) :
    blitPixels fb (h :: hits) =
      ((blitPixels (invertPixel fb h.1 h.2.1 h.2.2) hits).1,
        pixelAt fb h.1 h.2.1 h.2.2 || (blitPixels (invertPixel fb h.1 h.2.1 h.2.2) hits).2) := by
  have key : ∀ (l : List (Nat × Nat × Nat)) (g : List Plane) (k : Bool),
      l.foldl blitPixel (g, k) = ((l.foldl blitPixel (g, false)).1, k || (l.foldl blitPixel (g, false)).2) := by
    intro l
    induction l with
    | nil => intro g k; simp
    | cons a l ih =>
      intro g k
      simp only [List.foldl_cons, blitPixel]
      rw [ih _ (k || _), ih _ (false || _)]
      simp [Bool.or_assoc]
  simp only [blitPixels, List.foldl_cons, blitPixel, Bool.false_or]
  rw [key]

@[simp] theorem length_blitPixels (fb : List Plane) (hits : List (Nat × Nat × Nat)) :
    (blitPixels fb hits).1.length = fb.length := by
  induction hits generalizing fb with
  | nil => rfl
  | cons h hits ih => rw [blitPixels_cons]; simp [ih]

theorem blitPixels_hasSize {fb : List Plane} {w h : Nat} (hfb : ∀ pl ∈ fb, Plane.HasSize w h pl)
    (hits : List (Nat × Nat × Nat)) : ∀ pl ∈ (blitPixels fb hits).1, Plane.HasSize w h pl := by
  induction hits generalizing fb with
  | nil => exact hfb
  | cons a hits ih => rw [blitPixels_cons]; exact ih (invertPixel_hasSize hfb _ _ _)

/-- The pixels of a list lie inside the framebuffer. -/
abbrev HitsInside (np w h : Nat) (hits : List (Nat × Nat × Nat)) : Prop :=
  ∀ q ∈ hits, q.1 < np ∧ q.2.1 < h ∧ q.2.2 < w

/-- Drawing distinct pixels: each is inverted, no other pixel changes, and the collision bit is whether one of them was
1 before. -/
theorem blitPixels_spec {fb : List Plane} {w h : Nat} (hfb : ∀ pl ∈ fb, Plane.HasSize w h pl)
    {hits : List (Nat × Nat × Nat)} (hin : HitsInside fb.length w h hits) (hnd : hits.Nodup) :
    (∀ p y x, pixelAt (blitPixels fb hits).1 p y x = ((pixelAt fb p y x) ^^ decide ((p, y, x) ∈ hits))) ∧
    (blitPixels fb hits).2 = hits.any fun q => pixelAt fb q.1 q.2.1 q.2.2 := by
  induction hits generalizing fb with
  | nil => simp [blitPixels]
  | cons a hits ih =>
    obtain ⟨p0, y0, x0⟩ := a
    obtain ⟨hp0, hy0, hx0⟩ := hin (p0, y0, x0) (by simp)
    have hnd' := List.nodup_cons.mp hnd
    have hsz' := invertPixel_hasSize hfb p0 y0 x0
    have hinv := pixelAt_invertPixel hfb hp0 hy0 hx0
    have ih' := ih hsz' (fun q hq => by simpa using hin q (by simp [hq])) hnd'.2
    rw [blitPixels_cons]
    refine ⟨fun p y x => ?_, ?_⟩
    · simp only [ih'.1 p y x, hinv]
      by_cases heq : (p, y, x) = (p0, y0, x0)
      · rw [heq]; simp [hnd'.1]
      · simp [heq]
    · simp only [ih'.2, List.any_cons]
      congr 1
      rw [Bool.eq_iff_iff, List.any_eq_true, List.any_eq_true]
      refine exists_congr fun q => and_congr_right fun hq => ?_
      have hne : (q.1, q.2.1, q.2.2) ≠ (p0, y0, x0) := fun heq => hnd'.1 (by rw [← heq]; exact hq)
      rw [hinv, decide_eq_false hne, Bool.xor_false]

/-! ### The geometry -/

theorem width_ge (a : Arch) (hires : Bool) : 64 ≤ a.width hires := by cases a <;> cases hires <;> decide
theorem height_ge (a : Arch) (hires : Bool) : 32 ≤ a.height hires := by cases a <;> cases hires <;> decide
theorem width_dvd (a : Arch) (hires : Bool) : 8 ∣ a.width hires := by cases a <;> cases hires <;> decide

theorem spriteShape_small (c : Config) (b : Block) (n : Nibble) :
    (spriteShape c b n).width ≤ 16 ∧ (spriteShape c b n).rows ≤ 16 := by
  unfold spriteShape
  split
  · exact ⟨Nat.le_refl _, Nat.le_refl _⟩
  · exact ⟨by show 8 ≤ 16; decide, Nat.le_of_lt n.isLt⟩

/-- A sprite pixel's target lies inside the geometry (R147). -/
theorem target_inside {wrap : Bool} {w h ty tx : Nat} {t : Nat × Nat} (hw : 0 < w) (hh : 0 < h)
    (ht : target wrap w h ty tx = some t) : t.1 < h ∧ t.2 < w := by
  unfold target at ht
  split at ht
  · obtain rfl := Option.some.inj ht; exact ⟨Nat.mod_lt _ hh, Nat.mod_lt _ hw⟩
  · split at ht
    · cases ht
    · obtain rfl := Option.some.inj ht; show ty < h ∧ tx < w; omega

theorem add_mod_inj {m x0 a b : Nat} (ha : a < m) (hb : b < m) (h : (x0 + a) % m = (x0 + b) % m) : a = b := by
  have : a % m = b % m := Nat.ModEq.add_left_cancel' x0 h
  rwa [Nat.mod_eq_of_lt ha, Nat.mod_eq_of_lt hb] at this

/-- Two sprite pixels no farther apart than the plane's size with one target are one pixel. -/
theorem target_inj {wrap : Bool} {w h y0 x0 r r' k k' : Nat} {t : Nat × Nat} (hr : r < h) (hr' : r' < h) (hk : k < w)
    (hk' : k' < w) (h1 : target wrap w h (y0 + r) (x0 + k) = some t)
    (h2 : target wrap w h (y0 + r') (x0 + k') = some t) : r = r' ∧ k = k' := by
  unfold target at h1 h2
  cases wrap with
  | true =>
    simp only [if_true, Option.some.injEq] at h1 h2
    have hh := h1.trans h2.symm
    exact ⟨add_mod_inj hr hr' (Prod.mk.inj hh).1, add_mod_inj hk hk' (Prod.mk.inj hh).2⟩
  | false =>
    simp only [Bool.false_eq_true, if_false] at h1 h2
    split at h1
    · cases h1
    · split at h2
      · cases h2
      · have hh := (Option.some.inj h1).trans (Option.some.inj h2).symm
        have := Prod.mk.inj hh
        omega

/-! ### The pixels a sprite hits -/

variable {c : Config} {b : Block} {m : Memory} {i : Word} {x0 y0 : Nat} {g : Shape}

theorem mem_selectedPlanes {p : Nat} : p ∈ selectedPlanes c b ↔ selected c b p = true := by
  simp [selectedPlanes, selected]

theorem mem_spriteHits {p y x : Nat} :
    (p, y, x) ∈ spriteHits c b m i x0 y0 g ↔ selected c b p = true ∧ Lands c b m i x0 y0 g p y x := by
  simp only [spriteHits, List.mem_flatMap, mem_selectedPlanes, List.mem_range, List.mem_filterMap, Lands]
  constructor
  · rintro ⟨q, hq, r, hr, k, hk, h⟩
    split at h
    · rename_i hbit
      obtain ⟨t, ht, he⟩ := Option.map_eq_some_iff.mp h
      obtain ⟨rfl, rfl⟩ : q = p ∧ t = (y, x) := by simpa using he
      exact ⟨hq, r, k, hr, hk, hbit, ht⟩
    · cases h
  · rintro ⟨hp, r, k, hr, hk, hbit, ht⟩
    exact ⟨p, hp, r, hr, k, hk, by rw [if_pos hbit, ht]; rfl⟩

theorem spriteHits_inside : HitsInside c.arch.planes (c.arch.width b.hires) (c.arch.height b.hires)
    (spriteHits c b m i x0 y0 g) := by
  rintro ⟨p, y, x⟩ hq
  obtain ⟨hp, r, k, -, -, -, ht⟩ := mem_spriteHits.mp hq
  have hin := target_inside (Nat.lt_of_lt_of_le (by decide) (width_ge _ _))
    (Nat.lt_of_lt_of_le (by decide) (height_ge _ _)) ht
  exact ⟨by simp [selected] at hp; exact hp.1, hin.1, hin.2⟩

/-- No pixel is hit twice (R148). -/
theorem spriteHits_nodup (hw : g.width ≤ c.arch.width b.hires) (hh : g.rows ≤ c.arch.height b.hires) :
    (spriteHits c b m i x0 y0 g).Nodup := by
  have hit : ∀ {p r k : Nat} {q : Nat × Nat × Nat},
      (if spriteBit c m g i p r k = true then
        (target c.screenWrap (c.arch.width b.hires) (c.arch.height b.hires) (y0 + r) (x0 + k)).map fun t => (p, t.1, t.2)
      else none) = some q →
      q.1 = p ∧ target c.screenWrap (c.arch.width b.hires) (c.arch.height b.hires) (y0 + r) (x0 + k) = some q.2 := by
    intro p r k q h
    split at h
    · obtain ⟨t, ht, rfl⟩ := Option.map_eq_some_iff.mp h; exact ⟨rfl, ht⟩
    · cases h
  refine List.nodup_flatMap.mpr ⟨fun p _ => List.nodup_flatMap.mpr ⟨fun r hr => ?_, ?_⟩, ?_⟩
  · refine List.pairwise_filterMap.mpr (List.nodup_range.imp_of_mem fun {k k'} hk hk' hne q hq q' hq' => ?_)
    rintro rfl
    have hrow := Nat.lt_of_lt_of_le (List.mem_range.mp hr) hh
    exact hne (target_inj hrow hrow (Nat.lt_of_lt_of_le (List.mem_range.mp hk) hw)
      (Nat.lt_of_lt_of_le (List.mem_range.mp hk') hw) (hit hq).2 (hit hq').2).2
  · refine List.nodup_range.imp_of_mem fun {r r'} hr hr' hne q hq hq' => ?_
    obtain ⟨k, hk, h1⟩ := List.mem_filterMap.mp hq
    obtain ⟨k', hk', h2⟩ := List.mem_filterMap.mp hq'
    exact hne (target_inj (Nat.lt_of_lt_of_le (List.mem_range.mp hr) hh) (Nat.lt_of_lt_of_le (List.mem_range.mp hr') hh)
      (Nat.lt_of_lt_of_le (List.mem_range.mp hk) hw) (Nat.lt_of_lt_of_le (List.mem_range.mp hk') hw)
      (hit h1).2 (hit h2).2).1
  · refine (List.nodup_range.filter _).imp fun {p p'} hne q hq hq' => ?_
    obtain ⟨r, -, hq⟩ := List.mem_flatMap.mp hq
    obtain ⟨r', -, hq'⟩ := List.mem_flatMap.mp hq'
    obtain ⟨k, -, h1⟩ := List.mem_filterMap.mp hq
    obtain ⟨k', -, h2⟩ := List.mem_filterMap.mp hq'
    exact hne ((hit h1).1.symm.trans (hit h2).1)

/-- What the completing step of a blit draws: in a framebuffer of the current geometry, exactly the pixels the sprite
lands on are inverted, and the collision bit is whether one of them was 1. -/
theorem drawSprite_spec {c : Config} {b : Block} (hlen : b.fb.length = c.arch.planes)
    (hfb : ∀ pl ∈ b.fb, Plane.HasSize (c.arch.width b.hires) (c.arch.height b.hires) pl)
    (m : Memory) (vx vy : Byte) (i : Word) (n : Nibble) :
    (∀ p y x, (pixelAt (drawSprite c b m vx vy i n).1 p y x = !pixelAt b.fb p y x) ↔
      (selected c b p = true ∧ Lands c b m i (vx.toNat % c.arch.width b.hires) (vy.toNat % c.arch.height b.hires)
        (spriteShape c b n) p y x)) ∧
    ((drawSprite c b m vx vy i n).2 = true ↔ ∃ p y x, (selected c b p = true ∧
      Lands c b m i (vx.toNat % c.arch.width b.hires) (vy.toNat % c.arch.height b.hires) (spriteShape c b n) p y x) ∧
      pixelAt b.fb p y x = true) ∧
    (drawSprite c b m vx vy i n).1.length = b.fb.length ∧
    ∀ pl ∈ (drawSprite c b m vx vy i n).1, Plane.HasSize (c.arch.width b.hires) (c.arch.height b.hires) pl := by
  have hs := spriteShape_small c b n
  have hnd := spriteHits_nodup (c := c) (b := b) (m := m) (i := i) (x0 := vx.toNat % c.arch.width b.hires)
    (y0 := vy.toNat % c.arch.height b.hires) (g := spriteShape c b n)
    (Nat.le_trans hs.1 (Nat.le_trans (by decide) (width_ge _ _)))
    (Nat.le_trans hs.2 (Nat.le_trans (by decide) (height_ge _ _)))
  have hspec := blitPixels_spec hfb (hlen ▸ spriteHits_inside) hnd
  refine ⟨fun p y x => ?_, ?_, by simp [drawSprite], blitPixels_hasSize hfb _⟩
  · rw [drawSprite, hspec.1 p y x, ← mem_spriteHits]
    cases pixelAt b.fb p y x <;> simp
  · rw [drawSprite, hspec.2, List.any_eq_true]
    constructor
    · rintro ⟨⟨p, y, x⟩, hq, hp⟩; exact ⟨p, y, x, mem_spriteHits.mp hq, hp⟩
    · rintro ⟨p, y, x, hq, hp⟩; exact ⟨(p, y, x), mem_spriteHits.mpr hq, hp⟩

end Sys2Proof.Machine
end

