-- ==== Sys2Proof/Laws/Decode.lean ====
section
/-! SUPPORT. The fields of a word put together from nibbles, and what a word of two bytes is. -/

namespace Sys2Proof

@[simp] theorem regOf_nibbleOf (x : RegIx) : regOf (nibbleOf x) = x := rfl
@[simp] theorem nibbleOf_regOf (b : Nibble) : nibbleOf (regOf b) = b := rfl

variable (a b c d : Nibble)

theorem wordOfNibbles_toNat :
    (wordOfNibbles a b c d).toNat = 4096 * a.toNat + 256 * b.toNat + 16 * c.toNat + d.toNat := by
  have h := fun (x y : Nibble) => show (x ++ y).toNat = 16 * x.toNat + y.toNat by
    rw [BitVec.toNat_append, Nat.shiftLeft_eq, ← Nat.mul_comm (2 ^ 4), Nat.two_pow_add_eq_or_of_lt y.isLt]
  have h8 : ∀ x y : Byte, (x ++ y).toNat = 256 * x.toNat + y.toNat := fun x y => by
    rw [BitVec.toNat_append, Nat.shiftLeft_eq, ← Nat.mul_comm (2 ^ 8), Nat.two_pow_add_eq_or_of_lt y.isLt]
  show ((a ++ b : Byte) ++ (c ++ d : Byte) : Word).toNat = _
  rw [h8, h, h]; omega

@[simp] theorem fieldOp_wordOfNibbles : fieldOp (wordOfNibbles a b c d) = a := by
  apply BitVec.eq_of_toNat_eq
  simp only [fieldOp, BitVec.extractLsb'_toNat, wordOfNibbles_toNat, Nat.shiftRight_eq_div_pow]
  have := a.isLt; have := b.isLt; have := c.isLt; have := d.isLt; omega

@[simp] theorem fieldX_wordOfNibbles : fieldX (wordOfNibbles a b c d) = b := by
  apply BitVec.eq_of_toNat_eq
  simp only [fieldX, BitVec.extractLsb'_toNat, wordOfNibbles_toNat, Nat.shiftRight_eq_div_pow]
  have := a.isLt; have := b.isLt; have := c.isLt; have := d.isLt; omega

@[simp] theorem fieldY_wordOfNibbles : fieldY (wordOfNibbles a b c d) = c := by
  apply BitVec.eq_of_toNat_eq
  simp only [fieldY, BitVec.extractLsb'_toNat, wordOfNibbles_toNat, Nat.shiftRight_eq_div_pow]
  have := a.isLt; have := b.isLt; have := c.isLt; have := d.isLt; omega

@[simp] theorem fieldN_wordOfNibbles : fieldN (wordOfNibbles a b c d) = d := by
  apply BitVec.eq_of_toNat_eq
  simp only [fieldN, BitVec.extractLsb'_toNat, wordOfNibbles_toNat, Nat.shiftRight_eq_div_pow]
  have := a.isLt; have := b.isLt; have := c.isLt; have := d.isLt; omega

/-- A word is its four nibbles. -/
theorem wordOfNibbles_fields (w : Word) : wordOfNibbles (fieldOp w) (fieldX w) (fieldY w) (fieldN w) = w := by
  apply BitVec.eq_of_toNat_eq
  simp only [wordOfNibbles_toNat, fieldOp, fieldX, fieldY, fieldN, BitVec.extractLsb'_toNat, Nat.shiftRight_eq_div_pow]
  have := w.isLt; omega

@[simp] theorem fieldNn_wordOfNibbles : fieldNn (wordOfNibbles a b c d) = c ++ d := by
  simp only [fieldNn, wordOfNibbles]
  exact BitVec.extractLsb'_append_eq_right

/-- A word as its first two nibbles and its low byte. -/
theorem word_eq_op_x_nn (w : Word) : w = (fieldOp w ++ fieldX w) ++ fieldNn w := by
  conv_lhs => rw [← wordOfNibbles_fields w]
  rw [show fieldNn w = fieldY w ++ fieldN w from by conv_lhs => rw [← wordOfNibbles_fields w, fieldNn_wordOfNibbles]]
  rfl

/-- A word as its first nibble and its low twelve bits. -/
theorem word_eq_op_nnn (w : Word) : w = fieldOp w ++ fieldNnn w := by
  apply BitVec.eq_of_toNat_eq
  rw [BitVec.toNat_append, Nat.shiftLeft_eq, ← Nat.mul_comm (2 ^ 12), fieldNnn,
    ← Nat.two_pow_add_eq_or_of_lt (BitVec.extractLsb' 0 12 w).isLt]
  simp only [fieldOp, BitVec.extractLsb'_toNat, Nat.shiftRight_eq_div_pow]
  have := w.isLt; omega

/-- A mask acts nibble by nibble. -/
theorem wordOfNibbles_and (a' b' c' d' : Nibble) : wordOfNibbles a b c d &&& wordOfNibbles a' b' c' d' =
    wordOfNibbles (a &&& a') (b &&& b') (c &&& c') (d &&& d') := by
  unfold wordOfNibbles
  rw [BitVec.and_append, BitVec.and_append, BitVec.and_append]

theorem wordOfNibbles_inj {a b c d a' b' c' d' : Nibble} (h : wordOfNibbles a b c d = wordOfNibbles a' b' c' d') :
    a = a' ∧ b = b' ∧ c = c' ∧ d = d' := by
  have h1 := congrArg fieldOp h; have h2 := congrArg fieldX h; have h3 := congrArg fieldY h; have h4 := congrArg fieldN h
  simp only [fieldOp_wordOfNibbles, fieldX_wordOfNibbles, fieldY_wordOfNibbles, fieldN_wordOfNibbles] at h1 h2 h3 h4
  exact ⟨h1, h2, h3, h4⟩

@[simp] theorem wordOfBytes_high_low (w : Word) : wordOfBytes (highByte w) (lowByte w) = w := by
  simp only [wordOfBytes, highByte, lowByte]
  apply BitVec.eq_of_toNat_eq
  rw [BitVec.toNat_append, Nat.shiftLeft_eq, ← Nat.mul_comm (2 ^ 8), ← Nat.two_pow_add_eq_or_of_lt (BitVec.extractLsb' 0 8 w).isLt]
  simp only [BitVec.extractLsb'_toNat, Nat.shiftRight_eq_div_pow]
  have := w.isLt; omega

/-- What `decode` answers to two bytes and more. -/
theorem decode_cons (hi lo : Byte) (rest : List Byte) :
    decode (hi :: lo :: rest) = match decodeWord (wordOfBytes hi lo) with
      | some i => .ok (i, rest)
      | none => .error (.noRow (wordOfBytes hi lo)) := rfl

end Sys2Proof
end

