-- ==== Sys2Proof/Laws/Memory.lean ====
section
/-! SUPPORT. Main memory: a read after a write, and that every operation keeps the canonical form. -/

namespace Sys2Proof.Machine

theorem Memory.read_of_below {m : Memory} {a : Nat} (h : ∀ c ∈ m, a < c.1) : m.read a = unlistedByte := by
  induction m with
  | nil => rfl
  | cons c rest ih =>
    have hc := h c (by simp)
    simp only [Memory.read, if_neg (Nat.ne_of_gt hc)]
    exact ih fun d hd => h d (by simp [hd])

/-- A read after a write: the byte written at that address, any other address as before. -/
theorem Memory.read_write {m : Memory} (hm : m.wf) (a : Nat) (b : Byte) (k : Nat) :
    (m.write a b).read k = if k = a then b else m.read k := by
  induction m with
  | nil => by_cases hb : b = unlistedByte <;> by_cases hk : k = a <;>
      simp_all [Memory.write, Memory.read, eq_comm]
  | cons c rest ih =>
    obtain ⟨ka, cb⟩ := c
    have hsort := List.pairwise_cons.mp hm.1
    have hrest : Memory.wf rest := ⟨hsort.2, fun d hd => hm.2 d (by simp [hd])⟩
    have hlow : Memory.read rest ka = unlistedByte := Memory.read_of_below hsort.1
    have hbelow : a ≤ ka → Memory.read rest a = unlistedByte := fun h =>
      Memory.read_of_below fun d hd => Nat.lt_of_le_of_lt h (hsort.1 d hd)
    simp only [Memory.write]
    by_cases h1 : a < ka
    · by_cases hb : b = unlistedByte
      · simp only [h1, hb, if_true]
        by_cases hk : k = a
        · subst hk; simp [Memory.read, Nat.ne_of_gt h1, hbelow (Nat.le_of_lt h1)]
        · simp [hk]
      · simp only [h1, hb, if_true, if_false]
        by_cases hk : k = a
        · subst hk; simp [Memory.read]
        · simp [Memory.read, hk, Ne.symm hk]
    · by_cases h2 : a = ka
      · subst h2
        by_cases hb : b = unlistedByte
        · simp only [hb, Nat.lt_irrefl, if_true, if_false]
          by_cases hk : k = a
          · subst hk; simp [hlow]
          · simp [Memory.read, hk, Ne.symm hk]
        · simp only [hb, Nat.lt_irrefl, if_true, if_false]
          by_cases hk : k = a
          · subst hk; simp [Memory.read]
          · simp [Memory.read, hk, Ne.symm hk]
      · simp only [h1, h2, if_false, Memory.read, ih hrest]
        by_cases hk : ka = k
        · subst hk; simp [Ne.symm h2]
        · simp [hk]

theorem Memory.mem_write {m : Memory} {a : Nat} {b : Byte} {c : Host.Cell} (h : c ∈ m.write a b) :
    c ∈ m ∨ (c = (a, b) ∧ b ≠ unlistedByte) := by
  induction m with
  | nil =>
    simp only [Memory.write] at h
    split at h <;> simp_all
  | cons d rest ih =>
    obtain ⟨k, e⟩ := d
    simp only [Memory.write] at h
    split at h
    · (split at h <;> simp_all); try tauto
    · split at h
      · (split at h <;> simp_all); try tauto
      · rcases List.mem_cons.mp h with h | h
        · exact .inl (by simp [h])
        · rcases ih h with h | h
          · exact .inl (by simp [h])
          · exact .inr h

/-- A write keeps the canonical form. -/
theorem Memory.write_wf {m : Memory} (hm : m.wf) (a : Nat) (b : Byte) : (m.write a b).wf := by
  refine ⟨?_, fun c hc => ?_⟩
  · induction m with
    | nil => simp only [Memory.write]; split <;> simp
    | cons d rest ih =>
      obtain ⟨k, e⟩ := d
      have hsort := List.pairwise_cons.mp hm.1
      have hrest : Memory.wf rest := ⟨hsort.2, fun d hd => hm.2 d (by simp [hd])⟩
      simp only [Memory.write]
      split
      · rename_i hlt
        split
        · exact hm.1
        · refine List.pairwise_cons.mpr ⟨fun c hc => ?_, hm.1⟩
          rcases List.mem_cons.mp hc with rfl | hc
          · exact hlt
          · exact Nat.lt_trans hlt (hsort.1 c hc)
      · split
        · rename_i hlt heq
          split
          · exact hsort.2
          · exact List.pairwise_cons.mpr ⟨fun c hc => heq ▸ hsort.1 c hc, hsort.2⟩
        · rename_i hlt hne
          refine List.pairwise_cons.mpr ⟨fun c hc => ?_, ih hrest⟩
          rcases Memory.mem_write hc with hc | ⟨rfl, -⟩
          · exact hsort.1 c hc
          · show k < a; omega
  · rcases Memory.mem_write hc with hc | ⟨rfl, hb⟩
    · exact hm.2 c hc
    · exact hb

theorem Memory.writeBytes_wf {m : Memory} (hm : m.wf) (a : Nat) (bs : List Byte) : (m.writeBytes a bs).wf := by
  induction bs generalizing m a with
  | nil => exact hm
  | cons b rest ih => exact ih (Memory.write_wf hm a b) (a + 1)

/-- Bytes written at consecutive addresses read back; every other address is as before. -/
theorem Memory.read_writeBytes {m : Memory} (hm : m.wf) (a : Nat) (bs : List Byte) (k : Nat) :
    (m.writeBytes a bs).read k = if a ≤ k ∧ k < a + bs.length then bs.getD (k - a) 0#8 else m.read k := by
  induction bs generalizing m a with
  | nil => simp only [Memory.writeBytes, List.length_nil]; rw [if_neg (by omega)]
  | cons b rest ih =>
    simp only [Memory.writeBytes, ih (Memory.write_wf hm a b) (a + 1), Memory.read_write hm, List.length_cons]
    by_cases h : k = a
    · subst h; rw [if_neg (by omega), if_pos rfl, if_pos (by omega)]; simp
    · by_cases h2 : a + 1 ≤ k ∧ k < a + 1 + rest.length
      · rw [if_pos h2, if_pos (by omega), show k - a = (k - (a + 1)) + 1 by omega]; simp
      · rw [if_neg h2, if_neg h, if_neg (by omega)]

/-- Canonical memories that read alike are equal data. -/
theorem Memory.ext_of_read {m n : Memory} (hm : m.wf) (hn : n.wf) (h : ∀ a, m.read a = n.read a) : m = n := by
  induction m generalizing n with
  | nil =>
    cases n with
    | nil => rfl
    | cons d rest =>
      have := h d.1
      simp only [Memory.read, if_true] at this
      exact absurd this.symm (hn.2 d (by simp))
  | cons c rest ih =>
    obtain ⟨k, b⟩ := c
    have hs := List.pairwise_cons.mp hm.1
    cases n with
    | nil =>
      have := h k
      simp only [Memory.read, if_true] at this
      exact absurd this (hm.2 (k, b) (by simp))
    | cons d rest' =>
      obtain ⟨k', b'⟩ := d
      have hs' := List.pairwise_cons.mp hn.1
      have hkk : k = k' := by
        rcases Nat.lt_trichotomy k k' with hlt | heq | hgt
        · have := h k
          rw [show Memory.read ((k', b') :: rest') k = unlistedByte from Memory.read_of_below fun c hc => by
            rcases List.mem_cons.mp hc with rfl | hc
            · exact hlt
            · exact Nat.lt_trans hlt (hs'.1 c hc)] at this
          simp only [Memory.read, if_true] at this
          exact absurd this (hm.2 (k, b) (by simp))
        · exact heq
        · have := h k'
          rw [show Memory.read ((k, b) :: rest) k' = unlistedByte from Memory.read_of_below fun c hc => by
            rcases List.mem_cons.mp hc with rfl | hc
            · exact hgt
            · exact Nat.lt_trans hgt (hs.1 c hc)] at this
          simp only [Memory.read, if_true] at this
          exact absurd this.symm (hn.2 (k', b') (by simp))
      subst hkk
      have hb : b = b' := by simpa [Memory.read] using h k
      subst hb
      rw [ih ⟨hs.2, fun d hd => hm.2 d (by simp [hd])⟩ ⟨hs'.2, fun d hd => hn.2 d (by simp [hd])⟩ fun a => ?_]
      by_cases ha : k = a
      · subst ha; rw [Memory.read_of_below hs.1, Memory.read_of_below hs'.1]
      · simpa [Memory.read, ha] using h a

end Sys2Proof.Machine
end

