-- ==== Sys2Proof/Laws/State.lean ====
section
/-! SUPPORT. One lemma per field per update of State, true by rfl, so that no proof unfolds a record update. -/

namespace Sys2Proof.Machine

variable (s : State)

@[simp] theorem setBlk_cfg (b : Block) : (s.setBlk b).cfg = s.cfg := rfl
@[simp] theorem setBlk_blk (b : Block) : (s.setBlk b).blk = b := rfl
@[simp] theorem setBlk_cpu (b : Block) : (s.setBlk b).cpu = s.cpu := rfl
@[simp] theorem setBlk_mem (b : Block) : (s.setBlk b).mem = s.mem := rfl
@[simp] theorem setBlk_gateSent (b : Block) : (s.setBlk b).gateSent = s.gateSent := rfl
@[simp] theorem setBlk_life (b : Block) : (s.setBlk b).life = s.life := rfl
@[simp] theorem setBlk_schedule (b : Block) : (s.setBlk b).schedule = s.schedule := rfl
@[simp] theorem setBlk_displayOk (b : Block) : (s.setBlk b).displayOk = s.displayOk := rfl
@[simp] theorem setBlk_audioOk (b : Block) : (s.setBlk b).audioOk = s.audioOk := rfl
@[simp] theorem setBlk_out (b : Block) : (s.setBlk b).out = s.out := rfl
@[simp] theorem setBlk_getV (b : Block) (r : RegIx) : (s.setBlk b).getV r = s.getV r := rfl

@[simp] theorem setPc_cfg (pc : Nat) : (s.setPc pc).cfg = s.cfg := rfl
@[simp] theorem setPc_blk (pc : Nat) : (s.setPc pc).blk = s.blk := rfl
@[simp] theorem setPc_pc (pc : Nat) : (s.setPc pc).cpu.pc = pc := rfl
@[simp] theorem setPc_i (pc : Nat) : (s.setPc pc).cpu.i = s.cpu.i := rfl
@[simp] theorem setPc_v (pc : Nat) : (s.setPc pc).cpu.v = s.cpu.v := rfl
@[simp] theorem setPc_getV (pc : Nat) (r : RegIx) : (s.setPc pc).getV r = s.getV r := rfl
@[simp] theorem setPc_mem (pc : Nat) : (s.setPc pc).mem = s.mem := rfl
@[simp] theorem setPc_gateSent (pc : Nat) : (s.setPc pc).gateSent = s.gateSent := rfl
@[simp] theorem setPc_life (pc : Nat) : (s.setPc pc).life = s.life := rfl
@[simp] theorem setPc_schedule (pc : Nat) : (s.setPc pc).schedule = s.schedule := rfl
@[simp] theorem setPc_displayOk (pc : Nat) : (s.setPc pc).displayOk = s.displayOk := rfl
@[simp] theorem setPc_audioOk (pc : Nat) : (s.setPc pc).audioOk = s.audioOk := rfl
@[simp] theorem setPc_out (pc : Nat) : (s.setPc pc).out = s.out := rfl

@[simp] theorem setI_cfg (i : Word) : (s.setI i).cfg = s.cfg := rfl
@[simp] theorem setI_blk (i : Word) : (s.setI i).blk = s.blk := rfl
@[simp] theorem setI_pc (i : Word) : (s.setI i).cpu.pc = s.cpu.pc := rfl
@[simp] theorem setI_i (i : Word) : (s.setI i).cpu.i = i := rfl
@[simp] theorem setI_v (i : Word) : (s.setI i).cpu.v = s.cpu.v := rfl
@[simp] theorem setI_getV (i : Word) (r : RegIx) : (s.setI i).getV r = s.getV r := rfl
@[simp] theorem setI_mem (i : Word) : (s.setI i).mem = s.mem := rfl
@[simp] theorem setI_gateSent (i : Word) : (s.setI i).gateSent = s.gateSent := rfl
@[simp] theorem setI_life (i : Word) : (s.setI i).life = s.life := rfl
@[simp] theorem setI_schedule (i : Word) : (s.setI i).schedule = s.schedule := rfl
@[simp] theorem setI_displayOk (i : Word) : (s.setI i).displayOk = s.displayOk := rfl
@[simp] theorem setI_audioOk (i : Word) : (s.setI i).audioOk = s.audioOk := rfl
@[simp] theorem setI_out (i : Word) : (s.setI i).out = s.out := rfl

@[simp] theorem setV_cfg (x : RegIx) (b : Byte) : (s.setV x b).cfg = s.cfg := rfl
@[simp] theorem setV_blk (x : RegIx) (b : Byte) : (s.setV x b).blk = s.blk := rfl
@[simp] theorem setV_pc (x : RegIx) (b : Byte) : (s.setV x b).cpu.pc = s.cpu.pc := rfl
@[simp] theorem setV_i (x : RegIx) (b : Byte) : (s.setV x b).cpu.i = s.cpu.i := rfl
@[simp] theorem setV_mem (x : RegIx) (b : Byte) : (s.setV x b).mem = s.mem := rfl
@[simp] theorem setV_gateSent (x : RegIx) (b : Byte) : (s.setV x b).gateSent = s.gateSent := rfl
@[simp] theorem setV_life (x : RegIx) (b : Byte) : (s.setV x b).life = s.life := rfl
@[simp] theorem setV_schedule (x : RegIx) (b : Byte) : (s.setV x b).schedule = s.schedule := rfl
@[simp] theorem setV_displayOk (x : RegIx) (b : Byte) : (s.setV x b).displayOk = s.displayOk := rfl
@[simp] theorem setV_audioOk (x : RegIx) (b : Byte) : (s.setV x b).audioOk = s.audioOk := rfl
@[simp] theorem setV_out (x : RegIx) (b : Byte) : (s.setV x b).out = s.out := rfl

@[simp] theorem setMem_cfg (m : Memory) : (s.setMem m).cfg = s.cfg := rfl
@[simp] theorem setMem_blk (m : Memory) : (s.setMem m).blk = s.blk := rfl
@[simp] theorem setMem_cpu (m : Memory) : (s.setMem m).cpu = s.cpu := rfl
@[simp] theorem setMem_mem (m : Memory) : (s.setMem m).mem = m := rfl
@[simp] theorem setMem_gateSent (m : Memory) : (s.setMem m).gateSent = s.gateSent := rfl
@[simp] theorem setMem_life (m : Memory) : (s.setMem m).life = s.life := rfl
@[simp] theorem setMem_schedule (m : Memory) : (s.setMem m).schedule = s.schedule := rfl
@[simp] theorem setMem_displayOk (m : Memory) : (s.setMem m).displayOk = s.displayOk := rfl
@[simp] theorem setMem_audioOk (m : Memory) : (s.setMem m).audioOk = s.audioOk := rfl
@[simp] theorem setMem_out (m : Memory) : (s.setMem m).out = s.out := rfl
@[simp] theorem setMem_getV (m : Memory) (r : RegIx) : (s.setMem m).getV r = s.getV r := rfl

@[simp] theorem setGateSent_cfg (on : Bool) : (s.setGateSent on).cfg = s.cfg := rfl
@[simp] theorem setGateSent_blk (on : Bool) : (s.setGateSent on).blk = s.blk := rfl
@[simp] theorem setGateSent_cpu (on : Bool) : (s.setGateSent on).cpu = s.cpu := rfl
@[simp] theorem setGateSent_mem (on : Bool) : (s.setGateSent on).mem = s.mem := rfl
@[simp] theorem setGateSent_gateSent (on : Bool) : (s.setGateSent on).gateSent = on := rfl
@[simp] theorem setGateSent_life (on : Bool) : (s.setGateSent on).life = s.life := rfl
@[simp] theorem setGateSent_schedule (on : Bool) : (s.setGateSent on).schedule = s.schedule := rfl
@[simp] theorem setGateSent_displayOk (on : Bool) : (s.setGateSent on).displayOk = s.displayOk := rfl
@[simp] theorem setGateSent_audioOk (on : Bool) : (s.setGateSent on).audioOk = s.audioOk := rfl
@[simp] theorem setGateSent_out (on : Bool) : (s.setGateSent on).out = s.out := rfl
@[simp] theorem setGateSent_getV (on : Bool) (r : RegIx) : (s.setGateSent on).getV r = s.getV r := rfl

@[simp] theorem setLife_cfg (l : Life) : (s.setLife l).cfg = s.cfg := rfl
@[simp] theorem setLife_blk (l : Life) : (s.setLife l).blk = s.blk := rfl
@[simp] theorem setLife_cpu (l : Life) : (s.setLife l).cpu = s.cpu := rfl
@[simp] theorem setLife_mem (l : Life) : (s.setLife l).mem = s.mem := rfl
@[simp] theorem setLife_gateSent (l : Life) : (s.setLife l).gateSent = s.gateSent := rfl
@[simp] theorem setLife_life (l : Life) : (s.setLife l).life = l := rfl
@[simp] theorem setLife_schedule (l : Life) : (s.setLife l).schedule = s.schedule := rfl
@[simp] theorem setLife_displayOk (l : Life) : (s.setLife l).displayOk = s.displayOk := rfl
@[simp] theorem setLife_audioOk (l : Life) : (s.setLife l).audioOk = s.audioOk := rfl
@[simp] theorem setLife_out (l : Life) : (s.setLife l).out = s.out := rfl
@[simp] theorem setLife_getV (l : Life) (r : RegIx) : (s.setLife l).getV r = s.getV r := rfl

@[simp] theorem setSchedule_cfg (ts : List Turn) : (s.setSchedule ts).cfg = s.cfg := rfl
@[simp] theorem setSchedule_blk (ts : List Turn) : (s.setSchedule ts).blk = s.blk := rfl
@[simp] theorem setSchedule_cpu (ts : List Turn) : (s.setSchedule ts).cpu = s.cpu := rfl
@[simp] theorem setSchedule_mem (ts : List Turn) : (s.setSchedule ts).mem = s.mem := rfl
@[simp] theorem setSchedule_gateSent (ts : List Turn) : (s.setSchedule ts).gateSent = s.gateSent := rfl
@[simp] theorem setSchedule_life (ts : List Turn) : (s.setSchedule ts).life = s.life := rfl
@[simp] theorem setSchedule_schedule (ts : List Turn) : (s.setSchedule ts).schedule = ts := rfl
@[simp] theorem setSchedule_displayOk (ts : List Turn) : (s.setSchedule ts).displayOk = s.displayOk := rfl
@[simp] theorem setSchedule_audioOk (ts : List Turn) : (s.setSchedule ts).audioOk = s.audioOk := rfl
@[simp] theorem setSchedule_out (ts : List Turn) : (s.setSchedule ts).out = s.out := rfl
@[simp] theorem setSchedule_getV (ts : List Turn) (r : RegIx) : (s.setSchedule ts).getV r = s.getV r := rfl

@[simp] theorem setPorts_cfg (d a : Bool) : (s.setPorts d a).cfg = s.cfg := rfl
@[simp] theorem setPorts_blk (d a : Bool) : (s.setPorts d a).blk = s.blk := rfl
@[simp] theorem setPorts_cpu (d a : Bool) : (s.setPorts d a).cpu = s.cpu := rfl
@[simp] theorem setPorts_mem (d a : Bool) : (s.setPorts d a).mem = s.mem := rfl
@[simp] theorem setPorts_gateSent (d a : Bool) : (s.setPorts d a).gateSent = s.gateSent := rfl
@[simp] theorem setPorts_life (d a : Bool) : (s.setPorts d a).life = s.life := rfl
@[simp] theorem setPorts_schedule (d a : Bool) : (s.setPorts d a).schedule = s.schedule := rfl
@[simp] theorem setPorts_displayOk (d a : Bool) : (s.setPorts d a).displayOk = d := rfl
@[simp] theorem setPorts_audioOk (d a : Bool) : (s.setPorts d a).audioOk = a := rfl
@[simp] theorem setPorts_out (d a : Bool) : (s.setPorts d a).out = s.out := rfl
@[simp] theorem setPorts_getV (d a : Bool) (r : RegIx) : (s.setPorts d a).getV r = s.getV r := rfl

@[simp] theorem setOut_cfg (o : List Output) : (s.setOut o).cfg = s.cfg := rfl
@[simp] theorem setOut_blk (o : List Output) : (s.setOut o).blk = s.blk := rfl
@[simp] theorem setOut_cpu (o : List Output) : (s.setOut o).cpu = s.cpu := rfl
@[simp] theorem setOut_mem (o : List Output) : (s.setOut o).mem = s.mem := rfl
@[simp] theorem setOut_gateSent (o : List Output) : (s.setOut o).gateSent = s.gateSent := rfl
@[simp] theorem setOut_life (o : List Output) : (s.setOut o).life = s.life := rfl
@[simp] theorem setOut_schedule (o : List Output) : (s.setOut o).schedule = s.schedule := rfl
@[simp] theorem setOut_displayOk (o : List Output) : (s.setOut o).displayOk = s.displayOk := rfl
@[simp] theorem setOut_audioOk (o : List Output) : (s.setOut o).audioOk = s.audioOk := rfl
@[simp] theorem setOut_out (o : List Output) : (s.setOut o).out = o := rfl
@[simp] theorem setOut_getV (o : List Output) (r : RegIx) : (s.setOut o).getV r = s.getV r := rfl

theorem setV_getV (x r : RegIx) (b : Byte) : (s.setV x b).getV r = if r = x then b else s.getV r := by
  simp only [State.getV, State.setV, Vector.getElem_set, Fin.ext_iff, eq_comm (a := r.val)]

@[simp] theorem setV_getV_same (x : RegIx) (b : Byte) : (s.setV x b).getV x = b := by simp [setV_getV]

theorem setV_getV_other {x r : RegIx} (b : Byte) (h : r ≠ x) : (s.setV x b).getV r = s.getV r := by simp [setV_getV, h]

/-- Two register files that read alike are equal. -/
theorem v_ext {s t : State} (h : ∀ r, t.getV r = s.getV r) : t.cpu.v = s.cpu.v :=
  Vector.ext fun k hk => h ⟨k, hk⟩

@[simp] theorem advance_cfg : s.advance.cfg = s.cfg := rfl
@[simp] theorem advance_blk : s.advance.blk = s.blk := rfl
@[simp] theorem advance_mem : s.advance.mem = s.mem := rfl
@[simp] theorem advance_gateSent : s.advance.gateSent = s.gateSent := rfl
@[simp] theorem advance_life : s.advance.life = s.life := rfl
@[simp] theorem advance_schedule : s.advance.schedule = s.schedule := rfl
@[simp] theorem advance_displayOk : s.advance.displayOk = s.displayOk := rfl
@[simp] theorem advance_audioOk : s.advance.audioOk = s.audioOk := rfl
@[simp] theorem advance_out : s.advance.out = s.out := rfl
@[simp] theorem advance_pc : s.advance.cpu.pc = s.cpu.pc + 2 := rfl
@[simp] theorem advance_i : s.advance.cpu.i = s.cpu.i := rfl
@[simp] theorem advance_v : s.advance.cpu.v = s.cpu.v := rfl
@[simp] theorem advance_getV (r : RegIx) : s.advance.getV r = s.getV r := rfl

end Sys2Proof.Machine
end

