-- ==== Sys2Proof/Laws/Ops.lean ====
section
/-! SUPPORT. The shared operations, each with the lemma that says what it can do: the gate, the register write, taking a
trap, and the CPU's answer to a command's result; and `exec` of a block command as that answer. -/

namespace Sys2Proof.Machine

variable (s : State)

@[simp] theorem evalGate_cfg : s.evalGate.cfg = s.cfg := rfl
@[simp] theorem evalGate_blk : s.evalGate.blk = s.blk := rfl
@[simp] theorem evalGate_cpu : s.evalGate.cpu = s.cpu := rfl
@[simp] theorem evalGate_mem : s.evalGate.mem = s.mem := rfl
@[simp] theorem evalGate_life : s.evalGate.life = s.life := rfl
@[simp] theorem evalGate_schedule : s.evalGate.schedule = s.schedule := rfl
@[simp] theorem evalGate_displayOk : s.evalGate.displayOk = s.displayOk := rfl
@[simp] theorem evalGate_audioOk : s.evalGate.audioOk = s.audioOk := rfl
@[simp] theorem evalGate_gateSent : s.evalGate.gateSent = s.blk.toneGate := rfl
@[simp] theorem evalGate_out : s.evalGate.out = s.out ++ s.gateCalls := rfl
@[simp] theorem evalGate_getV (r : RegIx) : s.evalGate.getV r = s.getV r := rfl

@[simp] theorem takeTrap_life (t : Trap) : (takeTrap t s).life = .trapped t := rfl
@[simp] theorem takeTrap_blk (t : Trap) : (takeTrap t s).blk = s.blk := rfl
@[simp] theorem takeTrap_cfg (t : Trap) : (takeTrap t s).cfg = s.cfg := rfl
@[simp] theorem takeTrap_cpu (t : Trap) : (takeTrap t s).cpu = s.cpu := rfl
@[simp] theorem takeTrap_mem (t : Trap) : (takeTrap t s).mem = s.mem := rfl
@[simp] theorem takeTrap_gateSent (t : Trap) : (takeTrap t s).gateSent = s.gateSent := rfl
@[simp] theorem takeTrap_schedule (t : Trap) : (takeTrap t s).schedule = s.schedule := rfl
@[simp] theorem takeTrap_displayOk (t : Trap) : (takeTrap t s).displayOk = s.displayOk := rfl
@[simp] theorem takeTrap_audioOk (t : Trap) : (takeTrap t s).audioOk = s.audioOk := rfl
@[simp] theorem takeTrap_out (t : Trap) : (takeTrap t s).out = s.out := rfl

@[simp] theorem performWrite_none : s.performWrite none = s := rfl
@[simp] theorem performWrite_some (x : RegIx) (b : Byte) : s.performWrite (some (x, b)) = s.setV x b := rfl

variable (w : Option (RegIx × Byte))

@[simp] theorem performWrite_cfg : (s.performWrite w).cfg = s.cfg := by cases w <;> rfl
@[simp] theorem performWrite_blk : (s.performWrite w).blk = s.blk := by cases w <;> rfl
@[simp] theorem performWrite_mem : (s.performWrite w).mem = s.mem := by cases w <;> rfl
@[simp] theorem performWrite_pc : (s.performWrite w).cpu.pc = s.cpu.pc := by cases w <;> rfl
@[simp] theorem performWrite_i : (s.performWrite w).cpu.i = s.cpu.i := by cases w <;> rfl
@[simp] theorem performWrite_gateSent : (s.performWrite w).gateSent = s.gateSent := by cases w <;> rfl
@[simp] theorem performWrite_life : (s.performWrite w).life = s.life := by cases w <;> rfl
@[simp] theorem performWrite_schedule : (s.performWrite w).schedule = s.schedule := by cases w <;> rfl
@[simp] theorem performWrite_displayOk : (s.performWrite w).displayOk = s.displayOk := by cases w <;> rfl
@[simp] theorem performWrite_audioOk : (s.performWrite w).audioOk = s.audioOk := by cases w <;> rfl
@[simp] theorem performWrite_out : (s.performWrite w).out = s.out := by cases w <;> rfl

/-- The calls of the gate's evaluation depend on the sound timer, the last value sent and the Audio port alone. -/
theorem gateCalls_congr {s t : State} (hb : t.blk.st = s.blk.st) (hg : t.gateSent = s.gateSent)
    (ha : t.audioOk = s.audioOk) : t.gateCalls = s.gateCalls := by
  have ht : t.blk.toneGate = s.blk.toneGate := by rw [Block.toneGate, Block.toneGate, hb]
  rw [State.gateCalls, State.gateCalls, ht, hg, ha]

/-- The gate's evaluation calls `gate(on)` exactly when the value changes, with the new value. -/
theorem gate_mem_gateCalls {on : Bool} :
    Output.gate on ∈ s.gateCalls ↔ s.blk.toneGate ≠ s.gateSent ∧ on = s.blk.toneGate := by
  unfold State.gateCalls
  split <;> rename_i h
  · simp [h]
  · cases s.audioOk <;> simp [h]

/-- The gate's evaluation makes no call of the Display port and logs no skip. -/
theorem mem_gateCalls {o : Output} (h : o ∈ s.gateCalls) : (∃ on, o = .gate on) ∨ o = .logAudioFailure := by
  unfold State.gateCalls at h
  split at h
  · simp at h
  · cases hA : s.audioOk <;> simp [hA] at h
    · rcases h with h | h <;> simp [h]
    · simp [h]

/-- What `raiseInvalid` leaves as it was, whichever way it goes. -/
theorem raiseInvalid_frame (w : Word) : (raiseInvalid w s).blk = s.blk ∧ (raiseInvalid w s).cfg = s.cfg ∧
    (raiseInvalid w s).mem = s.mem ∧ (raiseInvalid w s).cpu = s.advance.cpu ∧
    (raiseInvalid w s).schedule = s.schedule ∧ (raiseInvalid w s).displayOk = s.displayOk ∧
    (raiseInvalid w s).audioOk = s.audioOk := by
  unfold raiseInvalid; split <;> simp

@[simp] theorem raiseInvalid_gateSent (w : Word) : (raiseInvalid w s).gateSent = s.blk.toneGate := by
  unfold raiseInvalid; split <;> rfl

/-- The log line under DEBUG_SKIP, then what the gate's evaluation calls. -/
theorem raiseInvalid_out (w : Word) : (raiseInvalid w s).out =
    (if s.cfg.debugSkip then [.logSkipped w s.cpu.pc] else []) ++ s.gateCalls := by
  unfold raiseInvalid; split <;> rfl

/-! ### The CPU's answer to a result -/

/-- The state a completed command leaves. -/
theorem retire_done {w : Word} {r : Result} (h : r.status = .done) :
    retire w r s = .next (((s.setBlk r.blk).performWrite r.write).advance.setOut r.calls).evalGate := by
  simp only [retire, h]

theorem retire_stall {w : Word} {r : Result} (h : r.status = .stall) :
    retire w r s = .next ((s.setBlk r.blk).setOut r.calls).evalGate := by simp only [retire, h]

theorem retire_invalid {w : Word} {r : Result} (h : r.status = .invalid) :
    retire w r s = .next (raiseInvalid w s) := by simp only [retire, h]

theorem retire_trap {w : Word} {r : Result} {t : Trap} (h : r.status = .trap t) :
    retire w r s = .next (takeTrap t (s.advance.setOut r.calls).evalGate) := by simp only [retire, h]

/-- Everything the CPU's answer can be. -/
theorem retire_cases {s t : State} {w : Word} {r : Result} (h : retire w r s = .next t) :
    (r.status = .done ∧ t = (((s.setBlk r.blk).performWrite r.write).advance.setOut r.calls).evalGate) ∨
    (r.status = .stall ∧ t = ((s.setBlk r.blk).setOut r.calls).evalGate) ∨
    (r.status = .invalid ∧ t = raiseInvalid w s) ∨
    (∃ k, r.status = .trap k ∧ t = takeTrap k (s.advance.setOut r.calls).evalGate) := by
  cases hs : r.status with
  | done => rw [retire_done s hs] at h; exact .inl ⟨rfl, (Host.Outcome.next.inj h).symm⟩
  | stall => rw [retire_stall s hs] at h; exact .inr (.inl ⟨rfl, (Host.Outcome.next.inj h).symm⟩)
  | invalid => rw [retire_invalid s hs] at h; exact .inr (.inr (.inl ⟨rfl, (Host.Outcome.next.inj h).symm⟩))
  | trap k => rw [retire_trap s hs] at h; exact .inr (.inr (.inr ⟨k, rfl, (Host.Outcome.next.inj h).symm⟩))

/-! ### A block command as its result -/

/-- The result a block command's own rule gives, acceptance aside (the context rows have none of their own). -/
def commandResult : Instr → State → Result
  | .cls, s => clsResult s.cfg s.blk
  | .low, s => modeResult s.cfg s.blk false s.displayOk
  | .high, s => modeResult s.cfg s.blk true s.displayOk
  | .scr, s => scrollResult s.cfg s.blk fun w h => scrollRight w h (scrollH s.cfg s.blk)
  | .scl, s => scrollResult s.cfg s.blk fun w h => scrollLeft w h (scrollH s.cfg s.blk)
  | .scd n, s => scrollResult s.cfg s.blk fun w h => scrollDown w h (scrollV s.cfg s.blk n)
  | .scu n, s => scrollResult s.cfg s.blk fun w h => scrollUp w h (scrollV s.cfg s.blk n)
  | .plane n, s => .completes { s.blk with pm := planeMask s.cfg n }
  | .drw x y n, s => drwResult s.cfg s.blk s.mem (s.getV x) (s.getV y) s.cpu.i n
  | .ldVxDt x, s => { Result.completes s.blk with write := some (x, s.blk.dt) }
  | .ldDtVx x, s => .completes { s.blk with dt := s.getV x }
  | .ldStVx x, s => .completes { s.blk with st := s.getV x }
  | .ldVxNn _ _, s | .ldINnn _, s | .jp _, s | .seVxNn _ _, s | .sneVxNn _ _, s => .completes s.blk

/-- `exec` of a block command: its result, accepted or not by the dialect, answered by the CPU. -/
theorem exec_block {i : Instr} (hi : i.isBlockCommand = true) :
    exec i s = retire (encodeWord i) (accept s.cfg i.group s.blk (commandResult i s)) s := by
  cases i <;> first | rfl | exact absurd hi (by simp [Instr.isBlockCommand, Instr.group])

theorem exec_accepted {i : Instr} (hi : i.isBlockCommand = true) (ha : i.wellFormedOn s.cfg.arch = true) :
    exec i s = retire (encodeWord i) (commandResult i s) s := by
  rw [exec_block s hi, accept, if_pos (show s.cfg.arch.accepts i.group = true from ha)]

theorem exec_unaccepted {i : Instr} (ha : i.wellFormedOn s.cfg.arch = false) :
    exec i s = .next (raiseInvalid (encodeWord i) s) := by
  have hi : i.isBlockCommand = true := by
    cases i <;> simp_all [Instr.isBlockCommand, Instr.group, Instr.wellFormedOn, Arch.accepts]
  rw [exec_block s hi, accept, if_neg (by simpa [Instr.wellFormedOn] using ha)]
  rfl

/-- A context instruction answers a next state in which only V, I, PC and the outputs may differ. -/
theorem exec_cpu {i : Instr} (hi : i.isBlockCommand = false) :
    ∃ c : Cpu, exec i s = .next { s with cpu := c, out := [] } := by
  have skip : ∀ c : Bool, ∃ k : Cpu, skipIf c s = { s with cpu := k, out := [] } := fun c => by
    unfold skipIf; split <;> exact ⟨_, rfl⟩
  cases i with
  | ldVxNn x nn => exact ⟨_, rfl⟩
  | ldINnn nnn => exact ⟨_, rfl⟩
  | jp nnn => exact ⟨_, rfl⟩
  | seVxNn x nn =>
    obtain ⟨k, hk⟩ := skip (s.getV x == nn)
    exact ⟨k, by rw [← hk]; rfl⟩
  | sneVxNn x nn =>
    obtain ⟨k, hk⟩ := skip (s.getV x != nn)
    exact ⟨k, by rw [← hk]; rfl⟩
  | _ => exact absurd hi (by simp [Instr.isBlockCommand, Instr.group])

/-- What `exec` of a block command can do: one of the four statuses decides. -/
theorem exec_block_cases {s t : State} {i : Instr} (hi : i.isBlockCommand = true) (h : exec i s = .next t) :
    (i.wellFormedOn s.cfg.arch = false ∧ t = raiseInvalid (encodeWord i) s) ∨
    (i.wellFormedOn s.cfg.arch = true ∧ retire (encodeWord i) (commandResult i s) s = .next t) := by
  cases ha : i.wellFormedOn s.cfg.arch with
  | false => rw [exec_unaccepted s ha] at h; exact .inl ⟨rfl, (Host.Outcome.next.inj h).symm⟩
  | true => rw [exec_accepted s hi ha] at h; exact .inr ⟨rfl, h⟩

end Sys2Proof.Machine
end

