-- ==== Sys2Proof/Laws/PerInstr.lean ====
section
/-! SUPPORT. The family EncodesInRow: the word of an instruction is a word of its row of the opcode table (R84). -/

namespace Sys2Proof.Laws.EncodesInRow

/-- The encoded word matches the mask and match of the instruction's row. -/
def Statement (i : Instr) : Prop := i.row.hits (encodeWord i) = true

/-- A mask that covers the first nibble alone keeps that nibble. -/
theorem mask_high_nibble (op x : Nibble) (r : Byte) :
    (((op ++ x) ++ r : Word) &&& ((0xF#4 ++ 0#4) ++ 0#8 : Word)) = ((op ++ 0#4) ++ 0#8 : Word) := by
  rw [BitVec.and_append, BitVec.and_append, BitVec.and_zero, BitVec.and_zero]
  congr 2
  revert op; decide

theorem mask_high_nibble12 (op : Nibble) (r : Addr12) :
    ((op ++ r : Word) &&& (0xF#4 ++ 0#12 : Word)) = (op ++ 0#12 : Word) := by
  rw [BitVec.and_append, BitVec.and_zero]
  congr 1
  revert op; decide

theorem hits_of_eq {r : OpcodeRow} {w : Word} (h : w &&& r.mask = r.val) : r.hits w = true := by
  simpa [OpcodeRow.hits] using h

theorem cls : Statement .cls := hits_of_eq (by decide)
theorem low : Statement .low := hits_of_eq (by decide)
theorem high : Statement .high := hits_of_eq (by decide)
theorem scr : Statement .scr := hits_of_eq (by decide)
theorem scl : Statement .scl := hits_of_eq (by decide)
theorem scd (n : Nibble) : Statement (.scd n) := hits_of_eq (by revert n; decide)
theorem scu (n : Nibble) : Statement (.scu n) := hits_of_eq (by revert n; decide)
theorem plane (n : Nibble) : Statement (.plane n) := hits_of_eq (by revert n; decide)
theorem drw (x y : RegIx) (n : Nibble) : Statement (.drw x y n) :=
  hits_of_eq (mask_high_nibble 0xD#4 (nibbleOf x) (nibbleOf y ++ n))
theorem ldVxDt (x : RegIx) : Statement (.ldVxDt x) := hits_of_eq (by revert x; decide)
theorem ldDtVx (x : RegIx) : Statement (.ldDtVx x) := hits_of_eq (by revert x; decide)
theorem ldStVx (x : RegIx) : Statement (.ldStVx x) := hits_of_eq (by revert x; decide)
theorem ldVxNn (x : RegIx) (nn : Byte) : Statement (.ldVxNn x nn) :=
  hits_of_eq (mask_high_nibble 0x6#4 (nibbleOf x) nn)
theorem ldINnn (nnn : Addr12) : Statement (.ldINnn nnn) := hits_of_eq (mask_high_nibble12 0xA#4 nnn)
theorem jp (nnn : Addr12) : Statement (.jp nnn) := hits_of_eq (mask_high_nibble12 0x1#4 nnn)
theorem seVxNn (x : RegIx) (nn : Byte) : Statement (.seVxNn x nn) :=
  hits_of_eq (mask_high_nibble 0x3#4 (nibbleOf x) nn)
theorem sneVxNn (x : RegIx) (nn : Byte) : Statement (.sneVxNn x nn) :=
  hits_of_eq (mask_high_nibble 0x4#4 (nibbleOf x) nn)

end Sys2Proof.Laws.EncodesInRow
end

