-- ==== Sys2Proof/Laws/Step.lean ====
section
/-! SUPPORT. One step: what taking a turn leaves, what a TICK and a stop do, and everything a step can do. -/

namespace Sys2Proof.Machine

variable (s : State)

@[simp] theorem takeTurn_cfg : s.takeTurn.2.cfg = s.cfg := by unfold State.takeTurn; split <;> rfl
@[simp] theorem takeTurn_blk : s.takeTurn.2.blk = s.blk := by unfold State.takeTurn; split <;> rfl
@[simp] theorem takeTurn_cpu : s.takeTurn.2.cpu = s.cpu := by unfold State.takeTurn; split <;> rfl
@[simp] theorem takeTurn_mem : s.takeTurn.2.mem = s.mem := by unfold State.takeTurn; split <;> rfl
@[simp] theorem takeTurn_gateSent : s.takeTurn.2.gateSent = s.gateSent := by unfold State.takeTurn; split <;> rfl
@[simp] theorem takeTurn_life : s.takeTurn.2.life = s.life := by unfold State.takeTurn; split <;> rfl

theorem takeTurn_nil {s : State} (h : s.schedule = []) : s.takeTurn = (.cycle, s) := by
  unfold State.takeTurn; rw [h]

theorem takeTurn_cons {s : State} {t : Turn} {rest : List Turn} (h : s.schedule = t :: rest) :
    s.takeTurn = (t.event, (s.setSchedule rest).setPorts t.displayOk t.audioOk) := by
  unfold State.takeTurn; rw [h]

/-- A cycle whose word lies in memory and decodes runs its instruction. -/
theorem cycle_decoded {s : State} {i : Instr} (hin : s.wordInMemory s.cpu.pc = true)
    (hi : decodeWord (s.readWord s.cpu.pc) = some i) : s.cycle = exec i s := by
  have hi' : decodeWord (wordOfBytes (s.mem.read s.cpu.pc) (s.mem.read (s.cpu.pc + 1))) = some i := hi
  simp only [State.cycle, State.fetch, hin, if_true, decode_cons, hi']

theorem cycle_noRow {s : State} (hin : s.wordInMemory s.cpu.pc = true)
    (hi : decodeWord (s.readWord s.cpu.pc) = none) :
    s.cycle = .refused (.wordOfNoRow (s.readWord s.cpu.pc) s.cpu.pc) := by
  have hi' : decodeWord (wordOfBytes (s.mem.read s.cpu.pc) (s.mem.read (s.cpu.pc + 1))) = none := hi
  simp only [State.cycle, State.fetch, hin, if_true, decode_cons, hi']

theorem cycle_outside {s : State} (hin : s.wordInMemory s.cpu.pc = false) :
    s.cycle = .fault (.fetchOutOfRange s.cpu.pc) := by
  simp only [State.cycle, State.fetch, hin, Bool.false_eq_true, if_false]

/-- Everything a cycle that answers a next state can be. -/
theorem cycle_next {s t : State} (h : s.cycle = .next t) :
    ∃ i, s.wordInMemory s.cpu.pc = true ∧ decodeWord (s.readWord s.cpu.pc) = some i ∧ exec i s = .next t := by
  cases hin : s.wordInMemory s.cpu.pc with
  | false => rw [cycle_outside hin] at h; cases h
  | true =>
    cases hi : decodeWord (s.readWord s.cpu.pc) with
    | none => rw [cycle_noRow hin hi] at h; cases h
    | some i => exact ⟨i, rfl, rfl, by rw [← cycle_decoded hin hi]; exact h⟩

/-- Everything a step that answers a next state can be. -/
theorem step_cases {s t : State} (h : step s = .next t) :
    s.life = .running ∧
    ((s.takeTurn.1 = .cycle ∧ ∃ i, exec i s.takeTurn.2 = .next t) ∨
     (s.takeTurn.1 = .tick ∧ t = s.takeTurn.2.tick) ∨
     (s.takeTurn.1 = .stop ∧ t = s.takeTurn.2.hostStop)) := by
  unfold step at h
  split at h
  · rename_i hl
    refine ⟨hl, ?_⟩
    unfold State.runTurn at h
    cases he : s.takeTurn.1 with
    | cycle =>
      rw [he] at h
      obtain ⟨i, -, -, hi⟩ := cycle_next h
      exact .inl ⟨rfl, i, hi⟩
    | tick => rw [he] at h; exact .inr (.inl ⟨rfl, (Host.Outcome.next.inj h).symm⟩)
    | stop => rw [he] at h; exact .inr (.inr ⟨rfl, (Host.Outcome.next.inj h).symm⟩)
  · cases h
  · cases h

/-! ### TICK and stop -/

@[simp] theorem tick_blk : s.tick.blk = tickBlock s.blk := by unfold State.tick; split <;> rfl
@[simp] theorem tick_cfg : s.tick.cfg = s.cfg := by unfold State.tick; split <;> rfl
@[simp] theorem tick_cpu : s.tick.cpu = s.cpu := by unfold State.tick; split <;> rfl
@[simp] theorem tick_mem : s.tick.mem = s.mem := by unfold State.tick; split <;> rfl
@[simp] theorem tick_gateSent : s.tick.gateSent = (tickBlock s.blk).toneGate := by unfold State.tick; split <;> rfl
theorem tick_life : s.tick.life = if s.displayOk then s.life else .trapped .displayPortError := by
  unfold State.tick; split <;> rfl

/-- The one `present` of a TICK, then what the gate's evaluation calls. -/
theorem tick_out : s.tick.out = s.presentCall :: (s.setBlk (tickBlock s.blk)).gateCalls := by
  unfold State.tick; split <;> rfl
@[simp] theorem tick_schedule : s.tick.schedule = s.schedule := by unfold State.tick; split <;> rfl
@[simp] theorem tick_displayOk : s.tick.displayOk = s.displayOk := by unfold State.tick; split <;> rfl
@[simp] theorem tick_audioOk : s.tick.audioOk = s.audioOk := by unfold State.tick; split <;> rfl

@[simp] theorem hostStop_blk : s.hostStop.blk = s.blk := by unfold State.hostStop; split <;> rfl
@[simp] theorem hostStop_cfg : s.hostStop.cfg = s.cfg := by unfold State.hostStop; split <;> rfl
@[simp] theorem hostStop_cpu : s.hostStop.cpu = s.cpu := by unfold State.hostStop; split <;> rfl
@[simp] theorem hostStop_mem : s.hostStop.mem = s.mem := by unfold State.hostStop; split <;> rfl
@[simp] theorem hostStop_gateSent : s.hostStop.gateSent = s.gateSent := by unfold State.hostStop; split <;> rfl
@[simp] theorem hostStop_schedule : s.hostStop.schedule = s.schedule := by unfold State.hostStop; split <;> rfl

/-- Counting down is subtraction of naturals that stops at 0 (R186). -/
theorem countDown_toNat (b : Byte) : (countDown b).toNat = b.toNat - 1 := by
  unfold countDown
  split
  · rename_i h; subst h; rfl
  · rename_i h
    have : b.toNat ≠ 0 := fun h0 => h (BitVec.eq_of_toNat_eq (by simpa using h0))
    rw [BitVec.toNat_sub]
    have hb := b.isLt
    have h1 : (1#8 : Byte).toNat = 1 := rfl
    rw [h1]; omega

end Sys2Proof.Machine
end

