-- ==== Sys2Proof/Tests/Slice0.lean ====
section
/-! SUPPORT. The model's own tests. The expected results come from the encodings of 30_encoding and 48_cpu_context and
from the vectors of 95_test_vectors (named in each comment); the witness theorems show, for each statement with
hypotheses, states and operands that meet them. -/

set_option maxRecDepth 100000

namespace Sys2Proof.Tests

open Sys2Proof.Machine

/-! ### Well-formedness: the check refuses, on each side of each group's border -/

theorem test_wf_schip_group_not_on_chip8 : ([Instr.low, .high, .scr, .scl, .scd 3].map
    fun i => (i.wellFormedOn .chip8, i.wellFormedOn .chip8hires)) = List.replicate 5 (false, false) := by decide
theorem test_wf_xo_group_not_on_schip : ([Arch.chip8, .chip8hires, .chip48, .schip10, .schip11].map
    fun a => (Instr.wellFormedOn a (.scu 3), Instr.wellFormedOn a (.plane 1))) = List.replicate 5 (false, false) := by decide
theorem test_wf_accepts : Instr.wellFormedOn .chip48 .high = true ∧ Instr.wellFormedOn .xochip (.scu 3) = true ∧
    Instr.wellFormedOn .xochip16 (.plane 9) = true ∧ Instr.wellFormedOn .chip8 (.drw 0 1 5) = true ∧
    Instr.wellFormedOn .chip8hires (.jp 0) = true := by decide

/-! ### Decoding: words written out bit by bit from R84 and R221 to R225 -/

theorem test_decode_cls : decodeWord 0b0000000011100000#16 = some .cls := by decide
theorem test_decode_low : decodeWord 0b0000000011111110#16 = some .low := by decide
theorem test_decode_high : decodeWord 0b0000000011111111#16 = some .high := by decide
theorem test_decode_scr : decodeWord 0b0000000011111011#16 = some .scr := by decide
theorem test_decode_scl : decodeWord 0b0000000011111100#16 = some .scl := by decide
theorem test_decode_scd : decodeWord 0b0000000011001101#16 = some (.scd 13) := by decide
theorem test_decode_scu : decodeWord 0b0000000011010010#16 = some (.scu 2) := by decide
theorem test_decode_plane : decodeWord 0b1111100100000001#16 = some (.plane 9) := by decide
theorem test_decode_drw : decodeWord 0b1101110000110101#16 = some (.drw 12 3 5) := by decide
theorem test_decode_ldVxDt : decodeWord 0b1111001100000111#16 = some (.ldVxDt 3) := by decide
theorem test_decode_ldDtVx : decodeWord 0b1111111000010101#16 = some (.ldDtVx 14) := by decide
theorem test_decode_ldStVx : decodeWord 0b1111010000011000#16 = some (.ldStVx 4) := by decide
theorem test_decode_ldVxNn : decodeWord 0b0110000100000101#16 = some (.ldVxNn 1 0x05) := by decide
theorem test_decode_ldINnn : decodeWord 0b1010000001010000#16 = some (.ldINnn 0x050) := by decide
theorem test_decode_jp : decodeWord 0b0001001000001110#16 = some (.jp 0x20E) := by decide
theorem test_decode_seVxNn : decodeWord 0b0011111100000001#16 = some (.seVxNn 15 0x01) := by decide
theorem test_decode_sneVxNn : decodeWord 0b0100101010110111#16 = some (.sneVxNn 10 0xB7) := by decide
/-- R86's examples reach no row, nor does a 00Cn pattern under another first byte. -/
theorem test_decode_no_row : ([0x00EE, 0x00FD, 0xF000, 0xF002, 0xFA0A, 0xF11E, 0xF129, 0xF130, 0xF13A, 0xF155, 0xF165,
    0x01C4, 0x8014, 0x0000].map decodeWord) = List.replicate 14 none := by decide
/-- Bytes are big-endian (R80), and one byte is no word. -/
theorem test_decode_bytes : decode [0xA0, 0x50, 0xD0] = .ok (.ldINnn 0x050, [0xD0]) ∧ decode [0xA0] = .error .truncated ∧
    decode [0x00, 0xEE] = .error (.noRow 0x00EE) := ⟨rfl, rfl, rfl⟩
theorem test_decodeTableWord : decodeTableWord 16 0xD123 = some (.drw 1 2 3) ∧ decodeTableWord 16 0x00EE = none := by
  decide

/-! ### Small states -/

/-- A configuration of a dialect with every quirk off and a palette of the right size. -/
def cfgOf (a : Arch) : Config := { Config.atReset with arch := a, palette := List.range (2 ^ a.planes) }

/-- The reset machine with these pixels (plane, row, column) lit and these block scalars. -/
def lit (c : Config) (pixels : List (Nat × Nat × Nat)) : State :=
  (State.resetWith c).setBlk { Block.reset c with fb := pixels.foldl (fun fb q => invertPixel fb q.1 q.2.1 q.2.2) (Block.reset c).fb }

/-- The reset machine in hi-res with these pixels lit. -/
def litHi (c : Config) (pixels : List (Nat × Nat × Nat)) : State :=
  (State.resetWith c).setBlk { Block.reset c with
    hires := true
    fb := pixels.foldl (fun fb q => invertPixel fb q.1 q.2.1 q.2.2) (List.replicate c.arch.planes (Plane.blank 128 64)) }

/-- The machine an instruction leaves; the one it had where it leaves none. -/
def after (i : Instr) (s : State) : State := match exec i s with | .next t => t | .fault _ | .refused _ => s

/-- The machine a step leaves. -/
def stepped (s : State) : State := match step s with | .next t => t | .fault _ | .refused _ => s

/-- `s` with PM. -/
def withPm (s : State) (pm : Nibble) : State := s.setBlk { s.blk with pm := pm }

/-! ### One instruction -/

/-- L2-C2. -/
theorem test_cls_selected_plane_only : (after .cls (lit (cfgOf .xochip) [(0, 0, 0), (1, 0, 0)])).blk.fb =
    (lit (cfgOf .xochip) [(1, 0, 0)]).blk.fb := by decide
/-- L2-C3. -/
theorem test_cls_no_plane : (after .cls (withPm (lit (cfgOf .xochip) [(0, 1, 1)]) 0)).blk.fb =
    (lit (cfgOf .xochip) [(0, 1, 1)]).blk.fb := by decide
/-- L2-M2. -/
theorem test_low : (after .low (litHi (cfgOf .schip11) [(0, 60, 100)])).blk = Block.reset (cfgOf .schip11) ∧
    (after .low (litHi (cfgOf .schip11) [])).out = [.setMode 64 32 1] := by decide
/-- L2-M4. -/
theorem test_high : (after .high (withPm (lit (cfgOf .xochip) [(0, 0, 0), (1, 1, 1)]) 2)).blk =
    (withPm (litHi (cfgOf .xochip) []) 2).blk := by decide
/-- L2-M5: InvalidOpcode(0x00FF, pc). -/
theorem test_high_on_chip8 : (after .high (State.resetWith (cfgOf .chip8))).life =
    .trapped (.invalidOpcode 0x00FF 0x200) := by decide
/-- L2-P1. -/
theorem test_plane16 : (after (.plane 9) (State.resetWith (cfgOf .xochip16))).blk.pm = 9#4 := by decide
/-- L2-P2. -/
theorem test_plane_truncates : (after (.plane 9) (State.resetWith (cfgOf .xochip))).blk.pm = 1#4 := by decide
/-- L2-S1. -/
theorem test_scr : (after .scr (lit (cfgOf .schip11) [(0, 0, 0), (0, 5, 10), (0, 31, 63)])).blk.fb =
    (lit (cfgOf .schip11) [(0, 0, 4), (0, 5, 14)]).blk.fb := by decide
/-- L2-S4. -/
theorem test_scr_lores_double : (after .scr (lit { cfgOf .schip11 with loresDouble := true } [(0, 0, 0), (0, 5, 10)])).blk.fb =
    (lit (cfgOf .schip11) [(0, 0, 2), (0, 5, 12)]).blk.fb := by decide
/-- L2-S2. -/
theorem test_scl : (after .scl (lit (cfgOf .schip11) [(0, 0, 0), (0, 5, 10), (0, 31, 63)])).blk.fb =
    (lit (cfgOf .schip11) [(0, 5, 6), (0, 31, 59)]).blk.fb := by decide
/-- L2-S8. -/
theorem test_scl_hires : (after .scl (litHi (cfgOf .schip11) [(0, 10, 20)])).blk.fb =
    (litHi (cfgOf .schip11) [(0, 10, 16)]).blk.fb := by decide
/-- L2-S3. -/
theorem test_scd : (after (.scd 3) (lit (cfgOf .schip11) [(0, 0, 0), (0, 5, 10), (0, 31, 63)])).blk.fb =
    (lit (cfgOf .schip11) [(0, 3, 0), (0, 8, 10)]).blk.fb := by decide
/-- L2-S5. -/
theorem test_scd_lores_double : (after (.scd 3) (lit { cfgOf .schip11 with loresDouble := true } [(0, 0, 0), (0, 5, 10)])).blk.fb =
    (lit (cfgOf .schip11) [(0, 1, 0), (0, 6, 10)]).blk.fb := by decide
/-- L2-S11. -/
theorem test_scu : (after (.scu 3) (withPm (lit (cfgOf .xochip) [(0, 5, 10), (1, 5, 10)]) 2)).blk.fb =
    (lit (cfgOf .xochip) [(0, 5, 10), (1, 2, 10)]).blk.fb := by decide
/-- L2-S10. -/
theorem test_scu_on_schip : (after (.scu 3) (State.resetWith (cfgOf .schip11))).life =
    .trapped (.invalidOpcode 0x00D3 0x200) := by decide
/-- L2-D14: a 16-wide sprite in XO lo-res, its first byte the left half. -/
theorem test_drw_big : (after (.drw 0 0 0) (((lit (cfgOf .xochip) []).load 0x300
    ((List.replicate 16 [0x80#8, 0x01#8]).flatten)).setI 0x300)).blk.fb =
    (lit (cfgOf .xochip) ((List.range 16).flatMap fun y => [(0, y, 0), (0, y, 15)])).blk.fb := by decide
/-- L2-D5: the wrapped pixel erases (0,0). -/
theorem test_drw_wraps_and_collides :
    let t := after (.drw 0 1 1) ((((lit { cfgOf .chip8 with screenWrap := true } [(0, 0, 0)]).load 0x300 [0xC0]).setI 0x300).setV 0 63)
    t.getV 15 = 1#8 ∧ t.blk.fb = (lit (cfgOf .chip8) [(0, 0, 63)]).blk.fb := by decide
/-- L2-T3. -/
theorem test_ldVxDt_vf : (after (.ldVxDt 15) ((State.resetWith (cfgOf .chip8)).setBlk
    { Block.reset (cfgOf .chip8) with dt := 5 })).getV 15 = 5#8 := by decide
/-- L2-T1. -/
theorem test_ldDtVx : (after (.ldDtVx 2) ((State.resetWith (cfgOf .chip8)).setV 2 0x3C)).blk.dt = 0x3C#8 := by decide
/-- L2-T4. -/
theorem test_ldStVx_gate_on : (after (.ldStVx 4) ((State.resetWith (cfgOf .chip8)).setV 4 3)).blk.st = 3#8 ∧
    (after (.ldStVx 4) ((State.resetWith (cfgOf .chip8)).setV 4 3)).out = [.gate true] := by decide
/-- L2-T9. -/
theorem test_ldStVx_gate_off : (after (.ldStVx 0) (((State.resetWith (cfgOf .chip8)).setBlk
    { Block.reset (cfgOf .chip8) with st := 5 }).setGateSent true)).out = [.gate false] := by decide
/-- R221's example. -/
theorem test_ldVxNn : (after (.ldVxNn 0 5) State.reset).getV 0 = 5#8 ∧
    (after (.ldVxNn 0 5) State.reset).cpu.pc = 0x202 := by decide
/-- R222's example. -/
theorem test_ldINnn : (after (.ldINnn 0x050) State.reset).cpu.i = 0x0050#16 := by decide
/-- L3-P1's last line: a jump to its own address. -/
theorem test_jp_self : (after (.jp 0x20E) (State.reset.setPc 0x20E)).cpu = (State.reset.setPc 0x20E).cpu := by decide
/-- L3-P1 at 0x20A: VF = 1, skip. -/
theorem test_se_skips : (after (.seVxNn 15 1) ((State.reset.setV 15 1).setPc 0x20A)).cpu.pc = 0x20E := by decide
/-- R224: over the two-word F000. -/
theorem test_se_skips_F000 : (after (.seVxNn 0 0) (State.reset.load 0x202 [0xF0, 0x00])).cpu.pc = 0x206 := by decide
/-- R225. -/
theorem test_sne : (after (.sneVxNn 0 1) State.reset).cpu.pc = 0x204 ∧
    (after (.sneVxNn 0 0) State.reset).cpu.pc = 0x202 := by decide

/-! ### One step -/

/-- L1-1, as a step from reset with the word and the glyph placed: D015 at 0x200, I = 0x050. -/
theorem test_step_draws_glyph :
    let t := stepped ((((lit (cfgOf .chip8) []).load 0x050 [0xF0, 0x90, 0x90, 0x90, 0xF0]).loadRom [0xD0, 0x15]).setI 0x050)
    t.getV 15 = 0#8 ∧ t.cpu.pc = 0x202 ∧ t.blk.fb = (lit (cfgOf .chip8) [(0, 0, 0), (0, 0, 1), (0, 0, 2), (0, 0, 3), (0, 1, 0),
      (0, 1, 3), (0, 2, 0), (0, 2, 3), (0, 3, 0), (0, 3, 3), (0, 4, 0), (0, 4, 1), (0, 4, 2), (0, 4, 3)]).blk.fb := by decide
/-- L2-D7, L3-P5: trap record 0x1000 with code 1, nothing drawn; then no step. -/
theorem test_strict_blit_traps :
    let c := { cfgOf .chip8 with strictBlitIndex := true }
    let t := after (.drw 0 1 2) (((lit c []).load 0xFFF [0x80]).setI 0xFFF)
    t.life = .trapped (.indexOutOfRange 0x1000) ∧ (Trap.indexOutOfRange 0x1000).code = 1 ∧ t.blk = Block.reset c ∧
      t.getV 15 = 0#8 := by decide
/-- Part 2.4, steps 1 and 3: arming stalls with PC at the word; a TICK takes VT to 0. -/
theorem test_delay_arms_then_ticks :
    let c := { cfgOf .chip8 with spriteDelay := true }
    let t := after (.drw 0 1 1) ((lit c []).load 0x300 [0x80])
    t.blk = { Block.reset c with wait := true, vt := 1 } ∧ t.cpu.pc = 0x200 ∧
      t.tick.blk = { Block.reset c with wait := true } := by decide
/-- L2-T5's third TICK, L2-T10: ST reaches 0, `present` of the whole screen comes first, then gate(off). -/
theorem test_tick_gate_off :
    let s := ((State.resetWith (cfgOf .chip8)).setBlk { Block.reset (cfgOf .chip8) with st := 1 }).setGateSent true
    s.tick.blk = Block.reset (cfgOf .chip8) ∧ s.tick.out =
      [.present [List.replicate 256 0#8] { x := 0, y := 0, width := 64, height := 32 }, .gate false] := by decide
/-- R189 "after every ... TICK", R250: a TICK whose `present` fails has counted down, and turns the gate off. -/
theorem test_tick_fails_gate_off :
    let s := (((State.resetWith (cfgOf .chip8)).setBlk { Block.reset (cfgOf .chip8) with st := 1 }).setGateSent true).setPorts false true
    s.tick.life = .trapped .displayPortError ∧ s.tick.blk.st = 0#8 ∧ s.tick.out.tail = [.gate false] := by decide
/-- R69: pixel (9, 1) is bit 6 of byte 1 * 8 + 1; L3-P3's end: colour 1 where plane 0 alone is lit. -/
theorem test_reader : ((lit (cfgOf .chip8) [(0, 1, 9)]).bitmaps.getD 0 []).getD 9 0 = 0x40#8 ∧
    (lit (cfgOf .xochip) [(0, 1, 0)]).colourIndex 0 1 = 1 ∧ (lit (cfgOf .xochip) [(1, 1, 0)]).colourIndex 0 1 = 2 := by decide
/-- The word the host places is the one the next step runs. -/
theorem test_withFetchWord : (stepped (State.reset.withFetchWord 16 0xA123)).cpu.i = 0x0123#16 := by decide
/-- L2-M7. -/
theorem test_debug_skip :
    let t := after .high (State.resetWith { cfgOf .chip8 with debugSkip := true })
    t.life = .running ∧ t.cpu.pc = 0x202 ∧ t.out = [.logSkipped 0x00FF 0x200] ∧ t.blk = Block.reset (cfgOf .chip8) := by decide

/-- R208, R243 at boot: `set_palette` fails after a `set_mode` that succeeded. -/
theorem test_boot_palette_fails :
    let t := boot { arch := some .chip8, planeCount := none, planeMask := none, rest := cfgOf .chip8 } true false true
    t.life = .trapped .displayPortError ∧ t.out = [.setMode 64 32 1, .setPalette [0, 1]] := by decide

/-! ### Witnesses: for each statement with hypotheses, a state and operands that meet them -/

/-- chip8 and xochip machines right after reset, and the strict chip8 one. -/
abbrev c8 : State := State.resetWith (cfgOf .chip8)
abbrev xo : State := State.resetWith (cfgOf .xochip)
abbrev strict8 : State := State.resetWith { cfgOf .chip8 with strictBlitIndex := true }
abbrev delay8 : State := State.resetWith { cfgOf .chip8 with spriteDelay := true }

/-- chip8 with the sprite byte 0x80 at I = 0x300, and the pixel it lands on lit beforehand. -/
abbrev onPixel : State := ((lit (cfgOf .chip8) [(0, 0, 0)]).load 0x300 [0x80]).setI 0x300

theorem witness_EncodeOfDecodedWord : decodeWord 0xD12F#16 = some (.drw 1 2 15#4) := by decide
theorem witness_WordDecodesToRowItMatches : Instr.row (.scd 0) ∈ opcodeTable ∧ (Instr.row (.scd 0)).hits 0x00CF#16 = true ∧
    (Instr.row (.scd 0)).hits 0x00D0#16 = false := by decide
/-- The last word of memory, with no turn listed and with a cycle listed. -/
theorem witness_StepRunsDecodedInstruction :
    let s := (c8.load 0xFFE [0xD0, 0x15]).setPc 0xFFE
    s.life = .running ∧ s.cpu.pc + 1 < s.cfg.arch.memSize ∧
      decodeWord (wordOfBytes (s.mem.read s.cpu.pc) (s.mem.read (s.cpu.pc + 1))) = some (.drw 0 1 5) ∧ s.schedule = [] ∧
      (s.setSchedule [goodCycle]).schedule = { event := .cycle, displayOk := true, audioOk := true } :: [] := by decide
/-- A clause each; the last two at the border of memory. -/
theorem witness_StepStops : (takeTrap .displayPortError c8).life = .trapped .displayPortError ∧
    (c8.setLife .returned).life = .returned ∧
    (c8.life = .running ∧ c8.schedule = [] ∧ c8.cfg.arch.memSize ≤ (c8.setPc 0xFFF).cpu.pc + 1) ∧
    ((c8.setPc 0xFFE).cpu.pc + 1 < c8.cfg.arch.memSize ∧ decodeWord ((c8.setPc 0xFFE).readWord 0xFFE) = none) ∧
    CycleComes c8 ∧ CycleComes (c8.setSchedule [goodCycle]) :=
  ⟨rfl, rfl, by decide, by decide, .inl rfl, .inr ⟨_, _, _, rfl⟩⟩
theorem witness_PlacedWordRunsNext : (c8.load 0x200 [0xD0, 0x15]).mem.wf := by decide
/-- A clause each: no dialect, a wrong plane count, a mask just too wide, a palette one short. -/
theorem witness_BootChecksConfiguration :
    let r : BootRequest := { arch := some .chip8, planeCount := none, planeMask := none, rest := cfgOf .chip8 }
    ({ r with arch := none }).arch = none ∧ (some 2 ≠ some Arch.chip8.planes) ∧ 2 ^ Arch.chip8.planes ≤ 2 ∧
      (boot { r with planeCount := some 2 } true true true).life = .trapped (.configurationError .planes) ∧
      (boot { r with planeMask := some 2 } true true true).life = .trapped (.configurationError .planes) ∧
      (boot { r with planeMask := some 1, rest := { r.rest with palette := [0] } } true true true).life =
        .trapped (.configurationError .paletteSize) := by decide
theorem witness_BootSequence :
    let r : BootRequest := { arch := some .chip8, planeCount := some 1, planeMask := some 1, rest := cfgOf .chip8 }
    r.arch = some .chip8 ∧ (∀ k, r.planeCount = some k → k = Arch.chip8.planes) ∧
      (∀ k, r.planeMask = some k → k < 2 ^ Arch.chip8.planes) ∧ r.rest.palette.length = 2 ^ Arch.chip8.planes :=
  ⟨rfl, fun _ h => (Option.some.inj h).symm, fun _ h => Option.some.inj h ▸ by decide, rfl⟩
theorem witness_ClsClearsSelectedPlanes : 31 < c8.height ∧ 63 < c8.width ∧ selected c8.cfg c8.blk 0 = true ∧
    selected xo.cfg xo.blk 1 = false ∧ c8.cfg.arch.planes = 1 ∧ c8.blk.pm = 1#4 := by decide
theorem witness_ModeChangeClearsAndReports : xo.cfg.arch.accepts .schip = true ∧ xo.displayOk = true := by decide
theorem witness_ModeChangeTrapsWhenDisplayFails : (xo.setPorts false true).cfg.arch.accepts .schip = true ∧
    (xo.setPorts false true).displayOk = false := by decide
theorem witness_PlaneSetsMask : xo.cfg.arch.isXo = true := by decide
/-- At the border column of each scroll, k = 4 and k = 2. -/
theorem witness_HorizontalScrollMovesPixels :
    let s := lit { cfgOf .schip11 with loresDouble := true } []
    s.cfg.arch.accepts .schip = true ∧ 2 = (if s.blk.hires then 4 else if s.cfg.loresDouble then 2 else 4) ∧
      4 = (if xo.blk.hires then 4 else if xo.cfg.loresDouble then 2 else 4) ∧ 31 < s.height ∧ 2 < s.width ∧
      61 + 2 < s.width ∧ ¬ 62 + 2 < s.width ∧ scrollTarget s.cfg s.blk 0 = true := by decide
/-- k = n at its greatest, and the halved odd distance. -/
theorem witness_VerticalScrollMovesPixels : xo.cfg.arch.accepts .schip = true ∧ xo.cfg.arch.isXo = true ∧
    15 = (if xo.blk.hires then (15#4).toNat else if xo.cfg.loresDouble then (15#4).toNat / 2 else (15#4).toNat) ∧
    scrollV { xo.cfg with loresDouble := true } xo.blk 3 = 1 ∧ 16 + 15 < xo.height ∧ ¬ 17 + 15 < xo.height ∧
    scrollTarget xo.cfg xo.blk 1 = false := by decide
theorem witness_ScrollRoundTrip : xo.cfg.arch.isXo = true ∧ scrollTarget xo.cfg xo.blk 0 = true ∧ 27 < xo.height ∧
    63 < xo.width ∧ 27 + scrollV xo.cfg xo.blk 4 < xo.height ∧ ¬ 28 + scrollV xo.cfg xo.blk 4 < xo.height := by decide

/-- One row of one byte at the last address of memory: in range under STRICT_BLIT_INDEX. -/
theorem blitInRange_last : BlitInRange (strict8.setI 0xFFF) 1 := by
  refine .inr fun p r b h => ?_
  have hp : p < 1 := of_decide_eq_true (Bool.and_eq_true_iff.mp h.1).1
  have hr : r < 1 := h.2.1
  have hb : b < 1 := h.2.2
  obtain ⟨rfl, rfl, rfl⟩ : p = 0 ∧ r = 0 ∧ b = 0 := by omega
  decide

theorem witness_BlitCompletes : BlitReady (strict8.setI 0xFFF) ∧ BlitInRange (strict8.setI 0xFFF) 1 ∧
    BlitReady (delay8.setBlk { delay8.blk with wait := true }) := ⟨.inl rfl, blitInRange_last, .inr (by decide)⟩

theorem lands_origin : LandsOn onPixel 0 1 1 0 0 0 := ⟨0, 0, by decide⟩

theorem witness_BlitInvertsLandedPixels : onPixel.FbWf ∧ BlitReady onPixel ∧ BlitInRange onPixel 1 ∧
    selected onPixel.cfg onPixel.blk 0 = true ∧ LandsOn onPixel 0 1 1 0 0 0 ∧ selected onPixel.cfg onPixel.blk 1 = false :=
  ⟨by decide, .inl rfl, .inl rfl, by decide, lands_origin, by decide⟩
theorem witness_BlitReportsCollision : onPixel.FbWf ∧ BlitReady onPixel ∧ BlitInRange onPixel 1 ∧
    selected onPixel.cfg onPixel.blk 0 = true ∧ LandsOn onPixel 0 1 1 0 0 0 ∧ pixelAt onPixel.blk.fb 0 0 0 = true :=
  ⟨by decide, .inl rfl, .inl rfl, by decide, lands_origin, by decide⟩
/-- A 16 by 16 sprite's last pixel, wrapped to the pixel left of and above the start. -/
theorem witness_NoPixelHitTwice : 15 < (spriteShape xo.cfg xo.blk 0).rows ∧ 15 < (spriteShape xo.cfg xo.blk 0).width ∧
    target true (xo.cfg.arch.width xo.blk.hires) (xo.cfg.arch.height xo.blk.hires) (31 + 15) (63 + 15) = some (14, 14) := by
  decide
theorem witness_SpriteBitsComeFromMemory : 15 < (spriteShape xo.cfg xo.blk 0).width ∧ xo.cfg.arch.isXo = true ∧
    7 < (spriteShape c8.cfg c8.blk 1).width ∧ (1#4 : Nibble) ≠ 0#4 ∧ 7 < (spriteShape c8.cfg c8.blk 0).width ∧
    c8.blk.hires = false ∧ c8.cfg.arch.isXo = false ∧ (State.resetWith (cfgOf .chip8hires)).cfg.arch.isXo = false := by decide
/-- A byte just past the one row read differs. -/
theorem witness_BlitReadsOnlySelectedSprites :
    ∀ p r b, SpriteByteIn onPixel 1 p r b →
      (onPixel.mem.write 0x301 0xFF).read (spriteByteAddr onPixel 1 p r b % onPixel.cfg.arch.memSize) =
        onPixel.mem.read (spriteByteAddr onPixel 1 p r b % onPixel.cfg.arch.memSize) := by
  intro p r b h
  have hp : p < 1 := of_decide_eq_true (Bool.and_eq_true_iff.mp h.1).1
  have hr : r < 1 := h.2.1
  have hb : b < 1 := h.2.2
  obtain ⟨rfl, rfl, rfl⟩ : p = 0 ∧ r = 0 ∧ b = 0 := by omega
  decide
/-- Row 0 is the last address in range, row 1 the first out of it. -/
theorem witness_StrictBlitTraps : let s := strict8.setI 0xFFF
    BlitReady s ∧ s.cfg.strictBlitIndex = true ∧ SpriteByteIn s 2 0 1 0 ∧
      s.cfg.arch.memSize ≤ spriteByteAddr s 2 0 1 0 ∧ spriteByteAddr s 2 0 0 0 < s.cfg.arch.memSize := by decide
/-- A clause each. -/
theorem witness_DelayedBlitStalls : delay8.cfg.spriteDelay = true ∧ delay8.blk.wait = false ∧
    (delay8.setBlk { delay8.blk with wait := true, vt := 1 }).blk.wait = true ∧
    (delay8.setBlk { delay8.blk with wait := true, vt := 1 }).blk.vt ≠ 0#8 := by decide
theorem witness_DelayedBlitCompletesAfterTick :
    let s := ((delay8.load 0x200 [0xD0, 0x11]).setSchedule [goodCycle, goodTick, goodCycle])
    s.life = .running ∧ s.cfg.spriteDelay = true ∧ s.blk.wait = false ∧ BlitInRange s 1 ∧
      s.cpu.pc + 1 < s.cfg.arch.memSize ∧ decodeWord (s.readWord s.cpu.pc) = some (.drw 0 1 1) ∧
      s.schedule = goodCycle :: goodTick :: goodCycle :: [] :=
  ⟨rfl, rfl, rfl, .inl rfl, by decide, by decide, rfl⟩
theorem witness_BlitTwiceRestores : onPixel.FbWf ∧ onPixel.cfg.spriteDelay = false ∧ BlitInRange onPixel 1 ∧
    (0 : RegIx) ≠ 15 ∧ (1 : RegIx) ≠ 15 := ⟨by decide, rfl, .inl rfl, by decide, by decide⟩
/-- The last byte of the last row, reached by the last column of the sprite. -/
theorem witness_ByteLevelBlitIsEquivalent : let s := (onPixel.setV 0 56).setV 1 31
    s.FbWf ∧ BlitReady s ∧ BlitInRange s 1 ∧ selected s.cfg s.blk 0 = true ∧ 0 < (spriteShape s.cfg s.blk 1).rows ∧
      targetRow s 1 0 = some 31 ∧ 7 < s.width / 8 ∧ shiftedRow s 0 1 0 0 7 = 0x80#8 :=
  ⟨by decide, .inl rfl, .inl rfl, by decide, by decide, by decide, by decide, by decide⟩

/-- chip8 with DT = 2, ST = 3 and a TICK next. -/
abbrev ticking : State :=
  ((c8.setBlk { c8.blk with dt := 2, st := 3 }).setGateSent true).setSchedule (List.replicate 3 goodTick)

theorem witness_TickDecrementsTimers : ticking.life = .running ∧ ticking.schedule =
    { event := .tick, displayOk := true, audioOk := true } :: [goodTick, goodTick] := by decide
/-- Both answers of the port. -/
theorem witness_TickPresentsThenGates : ticking.life = .running ∧
    (ticking.setSchedule [{ goodTick with displayOk := false }]).schedule =
      { event := .tick, displayOk := false, audioOk := true } :: [] ∧
    ticking.schedule = { event := .tick, displayOk := true, audioOk := true } :: [goodTick, goodTick] := by decide
theorem witness_TicksCountDown : ticking.life = .running ∧ ticking.schedule = List.replicate 3 goodTick ++ [] := by decide
/-- Both answers of the port. -/
theorem witness_StopPresentsAndReturns : c8.life = .running ∧ ∀ d, (c8.setSchedule
    [{ event := .stop, displayOk := d, audioOk := false }]).schedule = { event := .stop, displayOk := d, audioOk := false } :: [] :=
  ⟨rfl, fun _ => rfl⟩
theorem witness_GateFollowsSoundTimer : Instr.isBlockCommand (.ldStVx 0) = true ∧
    ∃ t, exec (.ldStVx 0) (c8.setV 0 1) = .next t ∧ t.blk.toneGate = true := ⟨rfl, _, rfl, by decide⟩
/-- Each way to meet the hypothesis with another VT. -/
theorem witness_NoCommandReadsSoundOrVideoTimer : (1#8 ≠ c8.blk.vt ∧ c8.cfg.spriteDelay = false) ∧
    (1#8 ≠ delay8.blk.vt ∧ ∀ x y n, Instr.cls ≠ .drw x y n) ∧ 0#8 = delay8.blk.vt := ⟨by decide, ⟨by decide, nofun⟩, rfl⟩
/-- A TICK that turns the gate off. -/
theorem witness_AudioFailureIsLoggedOnly :
    let s := ((c8.setBlk { c8.blk with st := 1 }).setGateSent true).setSchedule [goodTick]
    s.schedule = { event := .tick, displayOk := true, audioOk := true } :: [] ∧
      ∃ t, step s = .next t ∧ Output.gate false ∈ t.out := ⟨rfl, _, rfl, by decide⟩
/-- Each clause for each instruction; the last word that a skip can look at, and the first that it cannot. -/
theorem witness_SkipsOnComparison : (c8.getV 0 = 0#8 ↔ true = true) ∧ (c8.getV 0 = 1#8 ↔ true = false) ∧
    (c8.getV 0 = 1#8 ↔ false = true) ∧ (c8.setPc 0xFFC).cpu.pc + 3 < c8.cfg.arch.memSize ∧
    c8.cfg.arch.memSize ≤ (c8.setPc 0xFFD).cpu.pc + 3 ∧
    (c8.load 0xFFE [0xF0, 0x00]).readWord (0xFFC + 2) = 0xF000#16 := by decide
theorem witness_PackedBitmapLayout : 1 < xo.cfg.arch.planes ∧ 31 < xo.height ∧ 63 < xo.width := by decide
theorem witness_ColourIndexBits : 1 < xo.cfg.arch.planes := by decide
/-- With and without DEBUG_SKIP. -/
theorem witness_UnacceptedCommandIsInvalid : Instr.wellFormedOn c8.cfg.arch .high = false ∧ c8.cfg.debugSkip = false ∧
    (State.resetWith { cfgOf .chip8 with debugSkip := true }).cfg.debugSkip = true := by decide
theorem witness_AcceptedCommandIsNeverInvalid : xo.life = .running ∧ Instr.wellFormedOn xo.cfg.arch (.scu 3) = true ∧
    ∃ t, exec (.scu 3) xo = .next t := ⟨rfl, rfl, _, rfl⟩
theorem witness_NoStepWritesMemoryOrConfig : ∃ t, step (c8.load 0x200 [0x00, 0xE0]) = .next t := ⟨_, rfl⟩
/-- Every clause's instruction writes its piece of state somewhere. -/
theorem witness_WhoWritesBlockState : (after (.plane 3) xo).blk.pm ≠ xo.blk.pm ∧ (after .high xo).blk.hires ≠ xo.blk.hires ∧
    (after (.ldDtVx 0) (c8.setV 0 1)).blk.dt ≠ c8.blk.dt ∧ (after (.ldStVx 0) (c8.setV 0 1)).blk.st ≠ c8.blk.st ∧
    (after (.drw 0 1 1) delay8).blk.wait ≠ delay8.blk.wait ∧ (after .cls onPixel).blk.fb ≠ onPixel.blk.fb := by decide
theorem witness_WhoWritesRegisters : (after (.ldVxNn 3 1) c8).getV 3 ≠ c8.getV 3 ∧
    (after (.drw 0 1 1) onPixel).getV 15 ≠ onPixel.getV 15 ∧ (after (.ldINnn 1) c8).cpu.i ≠ c8.cpu.i ∧
    (after (.ldVxDt 3) ticking).getV 3 ≠ ticking.getV 3 := by decide
theorem witness_TrapsArePrecise : c8.life = .running ∧ ∃ t, exec .high c8 = .next t ∧
    t.life = .trapped (.invalidOpcode 0x00FF 0x200) ∧ c8.gateSent = c8.blk.toneGate := ⟨rfl, _, rfl, rfl, rfl⟩
/-- Each of the three causes. -/
theorem witness_TrapKindsAndCauses : (after .high c8).life = .trapped (.invalidOpcode 0x00FF 0x200) ∧
    (after (.drw 0 1 2) (strict8.setI 0xFFF)).life = .trapped (.indexOutOfRange 0x1000) ∧
    (after .high (xo.setPorts false true)).life = .trapped .displayPortError := by decide
theorem witness_WhoCallsTheDisplay : Output.setMode 128 64 2 ∈ (after .high xo).out := by decide
theorem witness_StepKeepsInvariant : let s := (onPixel.load 0x200 [0xD0, 0x11])
    s.Inv ∧ ∃ t, step s = .next t ∧ t.blk ≠ s.blk :=
  ⟨⟨by decide, by decide, by decide, by decide, fun _ => rfl, nofun, by decide, fun _ => ⟨rfl, rfl⟩, rfl⟩,
    _, rfl, by decide⟩
/-- Plane 1, not selected, differs. -/
theorem witness_UnselectedPlanesDoNotInterfere :
    let fb := (lit (cfgOf .xochip) [(1, 2, 3)]).blk.fb
    fb.length = xo.blk.fb.length ∧ fb ≠ xo.blk.fb ∧
      ∀ p, selected xo.cfg xo.blk p = true → fb.getD p [] = xo.blk.fb.getD p [] := by
  refine ⟨by decide, by decide, fun p h => ?_⟩
  have hp : p < 2 := of_decide_eq_true (Bool.and_eq_true_iff.mp h).1
  obtain rfl | rfl : p = 0 ∨ p = 1 := by omega
  · decide
  · exact absurd h (by decide)
theorem witness_LenientXoMachineNeverTraps : let s := xo.setSchedule [goodTick]
    s.life = .running ∧ s.cfg.arch.isXo = true ∧ s.cfg.strictBlitIndex = false ∧ s.displayOk = true ∧
      ∀ t ∈ s.schedule, t.displayOk = true := by decide

end Sys2Proof.Tests
end

/-! # What an instruction can do

Shared by the statements about single steps: the results of the commands' own rules, everything `exec` can answer, and
what each answer leaves unchanged. -/

namespace Sys2Proof.Machine

/-! ### The result of a command's own rule -/

/-- The forms that the result of DXYN takes, in the order of R249's checks: arming and waiting under SPRITE_DELAY
(R150), the strict trap (R152), the completing blit (R140). -/
inductive DrwAnswer (c : Config) (b : Block) (m : Memory) (vx vy : Byte) (i : Word) (n : Nibble) : Result → Prop
  | arm (hdelay : c.spriteDelay = true) (hwait : b.wait = false) : DrwAnswer c b m vx vy i n
      { blk := { b with wait := true, vt := 1#8 }, status := .stall, write := none, calls := [] }
  | wait (hdelay : c.spriteDelay = true) (hwait : b.wait = true) (hvt : b.vt ≠ 0#8) : DrwAnswer c b m vx vy i n
      { blk := b, status := .stall, write := none, calls := [] }
  | outOfRange (hready : c.spriteDelay = false ∨ (b.wait = true ∧ b.vt = 0#8)) (a : Nat)
      (hfail : strictFailure c b i n = some a) : DrwAnswer c b m vx vy i n
      { blk := b, status := .trap (.indexOutOfRange a), write := none, calls := [] }
  | draw (hready : c.spriteDelay = false ∨ (b.wait = true ∧ b.vt = 0#8))
      (hfail : strictFailure c b i n = none) : DrwAnswer c b m vx vy i n
      { blk := { b with fb := (drawSprite c b m vx vy i n).1, wait := if c.spriteDelay then false else b.wait }
        status := .done
        write := some (regVF, collisionByte (drawSprite c b m vx vy i n).2)
        calls := [] }

section
variable {c : Config} {b : Block} {m : Memory} {vx vy : Byte} {i : Word} {n : Nibble} {r : Result}

theorem blitResult_answer (hready : c.spriteDelay = false ∨ (b.wait = true ∧ b.vt = 0#8)) :
    DrwAnswer c b m vx vy i n (blitResult c b m vx vy i n) := by
  unfold blitResult
  split
  next a hfail => exact .outOfRange hready a hfail
  next hfail => exact .draw hready hfail

theorem drwResult_answer : DrwAnswer c b m vx vy i n (drwResult c b m vx vy i n) := by
  unfold drwResult
  split
  next harm => exact .arm harm.1 harm.2
  next harm =>
    split
    next hwait => exact .wait hwait.1 (by simpa [hwait.1] using harm) hwait.2
    next hwait =>
      refine blitResult_answer ?_
      cases hdelay : c.spriteDelay with
      | false => exact .inl rfl
      | true => exact .inr ⟨by simpa [hdelay] using harm, by simpa [hdelay] using hwait⟩

theorem DrwAnswer.status_ne_invalid (h : DrwAnswer c b m vx vy i n r) : r.status ≠ .invalid := by cases h <;> nofun

theorem DrwAnswer.calls_eq_nil (h : DrwAnswer c b m vx vy i n r) : r.calls = [] := by cases h <;> rfl

theorem DrwAnswer.trap (h : DrwAnswer c b m vx vy i n r) {k : Trap} (hk : r.status = .trap k) :
    ∃ a, strictFailure c b i n = some a ∧ k = .indexOutOfRange a := by
  cases h with
  | outOfRange _ a hfail => exact ⟨a, hfail, (Status.trap.inj hk).symm⟩
  | _ => cases hk

theorem DrwAnswer.write_reg (h : DrwAnswer c b m vx vy i n r) {x : RegIx} {v : Byte} (hw : r.write = some (x, v)) :
    x = regVF := by
  cases h with
  | draw => exact (Prod.mk.inj (Option.some.inj hw)).1.symm
  | _ => cases hw

end

theorem modeResult_status_ne_invalid (c : Config) (b : Block) (hires ok : Bool) :
    (modeResult c b hires ok).status ≠ .invalid := by cases ok <;> nofun

theorem modeResult_trap {c : Config} {b : Block} {hires ok : Bool} {k : Trap}
    (h : (modeResult c b hires ok).status = .trap k) : ok = false ∧ k = .displayPortError := by
  cases ok with
  | true => cases h
  | false => exact ⟨rfl, (Status.trap.inj h).symm⟩

/-- Invalid is the dialect's answer alone (`accept`), never a command's own (R85, R241). -/
theorem commandResult_status_ne_invalid (i : Instr) (s : State) : (commandResult i s).status ≠ .invalid := by
  cases i with
  | drw x y n => exact drwResult_answer.status_ne_invalid
  | low | high => exact modeResult_status_ne_invalid _ _ _ _
  | _ => nofun

/-- A command's own rule traps in two ways only: at a strict sprite address past memory (R152), and where the Display
port refuses a mode change (R208). -/
theorem commandResult_trap {i : Instr} {s : State} {k : Trap} (h : (commandResult i s).status = .trap k) :
    (∃ x y n a, i = .drw x y n ∧ strictFailure s.cfg s.blk s.cpu.i n = some a ∧ k = .indexOutOfRange a) ∨
    ((i = .low ∨ i = .high) ∧ s.displayOk = false ∧ k = .displayPortError) := by
  cases i with
  | drw x y n =>
    obtain ⟨a, hfail, hk⟩ := drwResult_answer.trap h
    exact .inl ⟨x, y, n, a, rfl, hfail, hk⟩
  | low => exact .inr ⟨.inl rfl, modeResult_trap h⟩
  | high => exact .inr ⟨.inr rfl, modeResult_trap h⟩
  | _ => cases h

/-- The only port call of a command's own rule is `set_mode`, by LOW and HIGH (R101, R204). -/
theorem commandResult_calls {i : Instr} {s : State} {o : Output} (h : o ∈ (commandResult i s).calls) :
    (i = .low ∨ i = .high) ∧ ∃ w h np, o = .setMode w h np := by
  cases i with
  | drw x y n =>
    rw [show (commandResult (.drw x y n) s).calls = [] from drwResult_answer.calls_eq_nil] at h
    cases h
  | low => exact ⟨.inl rfl, _, _, _, List.mem_singleton.mp h⟩
  | high => exact ⟨.inr rfl, _, _, _, List.mem_singleton.mp h⟩
  | _ => cases h

/-- Only Fx07 and DXYN request a register write, DXYN of VF (R12, R158, R180). -/
theorem commandResult_write {i : Instr} {s : State} {r : RegIx} {v : Byte}
    (h : (commandResult i s).write = some (r, v)) : i = .ldVxDt r ∨ (r = regVF ∧ ∃ x y n, i = .drw x y n) := by
  cases i with
  | drw x y n => exact .inr ⟨drwResult_answer.write_reg h, x, y, n, rfl⟩
  | ldVxDt x => exact .inl (by rw [(Prod.mk.inj (Option.some.inj h)).1])
  | _ => cases h

/-! ### Everything `exec` can answer -/

/-- The states that `exec i s` can leave: one of a CPU context row, one of a command the dialect refuses, and one for
each status of an accepted command (R9). -/
inductive ExecAnswer (i : Instr) (s : State) : State → Prop
  | context (hi : i.isBlockCommand = false) (c : Cpu) : ExecAnswer i s { s with cpu := c, out := [] }
  | invalid (ha : i.wellFormedOn s.cfg.arch = false) : ExecAnswer i s (raiseInvalid (encodeWord i) s)
  | done (ha : i.wellFormedOn s.cfg.arch = true) (hs : (commandResult i s).status = .done) : ExecAnswer i s
      (((s.setBlk (commandResult i s).blk).performWrite (commandResult i s).write).advance.setOut
        (commandResult i s).calls).evalGate
  | stall (ha : i.wellFormedOn s.cfg.arch = true) (hs : (commandResult i s).status = .stall) : ExecAnswer i s
      ((s.setBlk (commandResult i s).blk).setOut (commandResult i s).calls).evalGate
  | trap (ha : i.wellFormedOn s.cfg.arch = true) (k : Trap) (hs : (commandResult i s).status = .trap k) :
      ExecAnswer i s (takeTrap k (s.advance.setOut (commandResult i s).calls).evalGate)

theorem exec_answer {i : Instr} {s t : State} (h : exec i s = .next t) : ExecAnswer i s t := by
  cases hi : i.isBlockCommand with
  | false =>
    obtain ⟨c, hc⟩ := exec_cpu s hi
    obtain rfl := Host.Outcome.next.inj (hc.symm.trans h)
    exact .context hi c
  | true =>
    obtain ⟨ha, rfl⟩ | ⟨ha, hr⟩ := exec_block_cases hi h
    · exact .invalid ha
    · obtain ⟨hs, rfl⟩ | ⟨hs, rfl⟩ | ⟨hs, -⟩ | ⟨k, hs, rfl⟩ := retire_cases hr
      · exact .done ha hs
      · exact .stall ha hs
      · exact absurd hs (commandResult_status_ne_invalid i s)
      · exact .trap ha k hs

theorem ExecAnswer.cfg {i : Instr} {s t : State} (h : ExecAnswer i s t) : t.cfg = s.cfg := by
  cases h with
  | invalid => exact (raiseInvalid_frame s _).2.1
  | _ => simp

theorem ExecAnswer.mem {i : Instr} {s t : State} (h : ExecAnswer i s t) : t.mem = s.mem := by
  cases h with
  | invalid => exact (raiseInvalid_frame s _).2.2.1
  | _ => simp

/-! ### The registers -/

@[simp] theorem raiseInvalid_i (w : Word) (s : State) : (raiseInvalid w s).cpu.i = s.cpu.i := by
  unfold raiseInvalid; split <;> rfl

@[simp] theorem raiseInvalid_getV (w : Word) (s : State) (r : RegIx) : (raiseInvalid w s).getV r = s.getV r := by
  unfold raiseInvalid; split <;> rfl

@[simp] theorem skipIf_i (cond : Bool) (s : State) : (skipIf cond s).cpu.i = s.cpu.i := by cases cond <;> rfl

@[simp] theorem skipIf_getV (cond : Bool) (s : State) (r : RegIx) : (skipIf cond s).getV r = s.getV r := by
  cases cond <;> rfl

/-- A register write changes the register it names, and no other. -/
theorem write_of_performWrite_getV_ne {s : State} {w : Option (RegIx × Byte)} {r : RegIx}
    (h : (s.performWrite w).getV r ≠ s.getV r) : ∃ v, w = some (r, v) := by
  match w with
  | none => exact absurd rfl h
  | some (x, v) =>
    by_cases hx : r = x
    · exact ⟨v, by rw [hx]⟩
    · exact absurd (setV_getV_other s v hx) h

/-- Of the CPU context rows only 6xNN writes a V register, the one it names (R221). -/
theorem ldVxNn_of_getV_ne {i : Instr} {s t : State} (hi : i.isBlockCommand = false) (h : exec i s = .next t)
    {r : RegIx} (hr : t.getV r ≠ s.getV r) : ∃ nn, i = .ldVxNn r nn := by
  cases i with
  | ldVxNn x nn =>
    obtain rfl := Host.Outcome.next.inj h
    by_cases hx : r = x
    · exact ⟨nn, by rw [hx]⟩
    · exact absurd (setV_getV_other s nn hx) hr
  | ldINnn | jp => obtain rfl := Host.Outcome.next.inj h; exact absurd rfl hr
  | seVxNn | sneVxNn => obtain rfl := Host.Outcome.next.inj h; exact absurd (skipIf_getV _ s r) hr
  | _ => cases hi

/-- Of the CPU context rows only Annn writes I (R222). -/
theorem ldINnn_of_i_ne {i : Instr} {s t : State} (hi : i.isBlockCommand = false) (h : exec i s = .next t)
    (hr : t.cpu.i ≠ s.cpu.i) : ∃ nnn, i = .ldINnn nnn := by
  cases i with
  | ldINnn nnn => exact ⟨nnn, rfl⟩
  | ldVxNn | jp => obtain rfl := Host.Outcome.next.inj h; exact absurd rfl hr
  | seVxNn | sneVxNn => obtain rfl := Host.Outcome.next.inj h; exact absurd (skipIf_i _ s) hr
  | _ => cases hi

theorem writer_of_getV_ne {i : Instr} {s t : State} (h : exec i s = .next t) {r : RegIx}
    (hr : t.getV r ≠ s.getV r) :
    i = .ldVxDt r ∨ (∃ nn, i = .ldVxNn r nn) ∨ (r = 15 ∧ ∃ x y n, i = .drw x y n) := by
  cases exec_answer h with
  | context hi c => exact .inr (.inl (ldVxNn_of_getV_ne hi h hr))
  | invalid => exact absurd (raiseInvalid_getV _ s r) hr
  | done =>
    obtain ⟨v, hv⟩ := write_of_performWrite_getV_ne (s := s.setBlk (commandResult i s).blk) (by simpa using hr)
    exact (commandResult_write hv).imp_right .inr
  | stall | trap => exact absurd rfl hr

theorem writer_of_i_ne {i : Instr} {s t : State} (h : exec i s = .next t) (hr : t.cpu.i ≠ s.cpu.i) :
    ∃ nnn, i = .ldINnn nnn := by
  cases exec_answer h with
  | context hi c => exact ldINnn_of_i_ne hi h hr
  | _ => exact absurd (by simp) hr

/-- Settles O51: the answers of `exec`, each with the register write it performs. -/
theorem whoWritesRegisters : Obligations.WhoWritesRegisters :=
  fun _ _ _ h => ⟨fun _ => writer_of_getV_ne h, writer_of_i_ne h⟩

/-! ### Which dialect accepts which command -/

theorem accepts_schip_eq_false {A : Arch} : A.accepts .schip = false ↔ A = .chip8 ∨ A = .chip8hires := by
  cases A <;> decide

theorem accepts_xo_eq_false {A : Arch} : A.accepts .xo = false ↔ A ≠ .xochip ∧ A ≠ .xochip16 := by
  cases A <;> decide

theorem group_eq_schip {i : Instr} :
    i.group = .schip ↔ i = .low ∨ i = .high ∨ i = .scr ∨ i = .scl ∨ ∃ n, i = .scd n := by
  cases i <;> simp [Instr.group]

theorem group_eq_xo {i : Instr} : i.group = .xo ↔ ∃ n, i = .scu n ∨ i = .plane n := by
  cases i <;> simp [Instr.group]

/-- Only the groups schip and xo are ever refused (R11). -/
theorem wellFormedOn_eq_false {i : Instr} {A : Arch} : i.wellFormedOn A = false ↔
    (i.group = .schip ∧ A.accepts .schip = false) ∨ (i.group = .xo ∧ A.accepts .xo = false) := by
  unfold Instr.wellFormedOn
  cases i.group <;> simp [Arch.accepts]

/-! ### Accepted commands are never Invalid -/

theorem logSkipped_not_mem_calls (i : Instr) (s s' : State) (w : Word) (pc : Nat) :
    Output.logSkipped w pc ∉ (commandResult i s).calls ++ s'.gateCalls := by
  rw [List.mem_append]
  rintro (h | h)
  · obtain ⟨-, _, _, _, ho⟩ := commandResult_calls h
    cases ho
  · obtain ⟨_, ho⟩ | ho := mem_gateCalls s' h <;> cases ho

/-- An accepted instruction of a running machine does not trap as InvalidOpcode: what traps is its own rule. -/
theorem life_ne_invalidOpcode {i : Instr} {s t : State} (hl : s.life = .running)
    (ha : i.wellFormedOn s.cfg.arch = true) (h : exec i s = .next t) (w : Word) (pc : Nat) :
    t.life ≠ .trapped (.invalidOpcode w pc) := by
  cases exec_answer h with
  | invalid ha' => simp [ha] at ha'
  | trap _ k hs =>
    obtain ⟨_, _, _, _, -, -, rfl⟩ | ⟨-, -, rfl⟩ := commandResult_trap hs <;> nofun
  | _ => simp [hl]

theorem logSkipped_not_mem_out {i : Instr} {s t : State} (ha : i.wellFormedOn s.cfg.arch = true)
    (h : exec i s = .next t) (w : Word) (pc : Nat) : Output.logSkipped w pc ∉ t.out := by
  cases exec_answer h with
  | context => nofun
  | invalid ha' => simp [ha] at ha'
  | _ => exact logSkipped_not_mem_calls i s _ w pc

/-- Settles O47: the acceptance table of R11 group by group, and the answers of `exec` of an accepted instruction. -/
theorem acceptedCommandIsNeverInvalid : Obligations.AcceptedCommandIsNeverInvalid := by
  refine ⟨fun i A => ?_, fun i s t hl ha h => ⟨life_ne_invalidOpcode hl ha h, logSkipped_not_mem_out ha h⟩⟩
  rw [wellFormedOn_eq_false, group_eq_schip, accepts_schip_eq_false, group_eq_xo, accepts_xo_eq_false]

/-! # The invariant

Every step keeps `State.Inv`: its clauses about the block are a predicate of their own, which every accepted command's
result and the TICK keep. -/

/-- The clauses of `State.Inv` that speak of the block and the configuration alone (R31, R32, R33, R37, R39, R107,
R150). -/
structure BlockWf (c : Config) (b : Block) : Prop where
  fb_length : b.fb.length = c.arch.planes
  fb_size : ∀ pl ∈ b.fb, Plane.HasSize (c.arch.width b.hires) (c.arch.height b.hires) pl
  pm_range : b.pm.toNat < 2 ^ c.arch.planes
  pm_one : c.arch.planes = 1 → b.pm = 1#4
  hires_capable : b.hires = true → c.arch.hiresCapable = true
  vt_small : b.vt.toNat ≤ 1
  wait_off : c.spriteDelay = false → b.wait = false ∧ b.vt = 0#8

theorem State.Inv.blockWf {s : State} (h : s.Inv) : BlockWf s.cfg s.blk :=
  { h with fb_length := h.fb_wf.1, fb_size := h.fb_wf.2 }

/-- A step that leaves configuration and memory keeps the invariant when it leaves a block in order and the gate
value sent. -/
theorem State.Inv.of_blockWf {s t : State} (h : s.Inv) (hc : t.cfg = s.cfg) (hm : t.mem = s.mem)
    (hb : BlockWf s.cfg t.blk) (hg : t.gateSent = t.blk.toneGate) : t.Inv := by
  rw [← hc] at hb
  exact { hb with
    mem_wf := hm ▸ h.mem_wf
    mem_inside := by rw [hm, hc]; exact h.mem_inside
    fb_wf := ⟨hb.fb_length, hb.fb_size⟩
    gate_sent := hg }

section
variable {c : Config} {b : Block}

/-- Rewriting a set of planes by an operation that gives planes of the current geometry. -/
theorem BlockWf.mapPlanes (hb : BlockWf c b) (sel : Nat → Bool) {f : Plane → Plane}
    (hf : ∀ pl, Plane.HasSize (c.arch.width b.hires) (c.arch.height b.hires) (f pl)) :
    BlockWf c { b with fb := Machine.mapPlanes sel f b.fb } :=
  { hb with
    fb_length := (length_mapPlanes sel f b.fb).trans hb.fb_length
    fb_size := mapPlanes_hasSize hb.fb_size hf }

theorem DrwAnswer.blockWf {m : Memory} {vx vy : Byte} {i : Word} {n : Nibble} {r : Result}
    (h : DrwAnswer c b m vx vy i n r) (hb : BlockWf c b) : BlockWf c r.blk := by
  cases h with
  | arm hdelay => exact { hb with vt_small := Nat.le_refl 1, wait_off := fun hoff => by simp [hdelay] at hoff }
  | wait => exact hb
  | outOfRange => exact hb
  | draw =>
    obtain ⟨-, -, hlen, hsize⟩ := drawSprite_spec hb.fb_length hb.fb_size m vx vy i n
    exact { hb with
      fb_length := hlen.trans hb.fb_length
      fb_size := hsize
      wait_off := fun hoff => by simpa [hoff] using hb.wait_off hoff }

/-- A mode change leaves blank planes of the new geometry (R101). -/
theorem BlockWf.modeResult (hb : BlockWf c b) {hires : Bool} (hcap : hires = true → c.arch.hiresCapable = true)
    (ok : Bool) : BlockWf c (modeResult c b hires ok).blk :=
  { hb with
    fb_length := List.length_replicate
    fb_size := fun pl hpl => by rw [List.eq_of_mem_replicate hpl]; exact Plane.blank_hasSize _ _
    hires_capable := hcap }

theorem planes_ne_one_of_isXo : ∀ {A : Arch}, A.isXo = true → A.planes ≠ 1 := by
  intro A
  cases A <;> decide

theorem planeMask_lt (n : Nibble) : (planeMask c n).toNat < 2 ^ c.arch.planes := by
  have hmod : n.toNat % 2 ^ c.arch.planes < 2 ^ c.arch.planes := Nat.mod_lt _ (Nat.two_pow_pos _)
  exact Nat.lt_of_le_of_lt (by simpa [planeMask] using Nat.mod_le _ 16) hmod

theorem BlockWf.planeMask (hb : BlockWf c b) (hxo : c.arch.isXo = true) (n : Nibble) :
    BlockWf c { b with pm := planeMask c n } :=
  { hb with
    pm_range := planeMask_lt n
    pm_one := fun h1 => absurd h1 (planes_ne_one_of_isXo hxo) }

theorem BlockWf.tickBlock (hb : BlockWf c b) : BlockWf c (tickBlock b) :=
  { hb with
    vt_small := by
      have := hb.vt_small
      show (countDown b.vt).toNat ≤ 1
      rw [countDown_toNat]; omega
    wait_off := fun hoff => by
      obtain ⟨hwait, hvt⟩ := hb.wait_off hoff
      exact ⟨hwait, by simp [Machine.tickBlock, countDown, hvt]⟩ }

end

theorem commandResult_blockWf {i : Instr} {s : State} (ha : i.wellFormedOn s.cfg.arch = true)
    (hb : BlockWf s.cfg s.blk) : BlockWf s.cfg (commandResult i s).blk := by
  cases i with
  | cls => exact hb.mapPlanes _ fun _ => Plane.blank_hasSize _ _
  | scr | scl | scd | scu => exact hb.mapPlanes _ fun _ => Plane.build_hasSize _ _ _
  | low => exact hb.modeResult (hires := false) nofun s.displayOk
  | high => exact hb.modeResult (fun _ => ha) s.displayOk
  | plane n => exact hb.planeMask ha n
  | drw x y n => exact drwResult_answer.blockWf hb
  | ldDtVx | ldStVx => exact { hb with }
  | _ => exact hb

theorem exec_keeps_inv {i : Instr} {s t : State} (hs : s.Inv) (h : exec i s = .next t) : t.Inv := by
  have hans := exec_answer h
  refine hs.of_blockWf hans.cfg hans.mem ?_ ?_
  · cases hans with
    | invalid => rw [(raiseInvalid_frame s _).1]; exact hs.blockWf
    | done ha | stall ha => simpa using commandResult_blockWf ha hs.blockWf
    | context | trap => exact hs.blockWf
  · cases hans with
    | context => exact hs.gate_sent
    | invalid => rw [raiseInvalid_gateSent, (raiseInvalid_frame s _).1]
    | done | stall | trap => rfl

theorem takeTurn_keeps_inv {s : State} (hs : s.Inv) : s.takeTurn.2.Inv :=
  hs.of_blockWf (by simp) (by simp) (by simpa using hs.blockWf) (by simpa using hs.gate_sent)

theorem tick_keeps_inv {s : State} (hs : s.Inv) : s.tick.Inv :=
  hs.of_blockWf (by simp) (by simp) (by simpa using hs.blockWf.tickBlock) (by simp)

theorem hostStop_keeps_inv {s : State} (hs : s.Inv) : s.hostStop.Inv :=
  hs.of_blockWf (by simp) (by simp) (by simpa using hs.blockWf) (by simpa using hs.gate_sent)

/-- Settles O55: the turn taken, then each of the three events, keeps the invariant. -/
theorem stepKeepsInvariant : Obligations.StepKeepsInvariant := by
  intro s t hs h
  have hturn := takeTurn_keeps_inv hs
  obtain ⟨-, ⟨-, i, hexec⟩ | ⟨-, rfl⟩ | ⟨-, rfl⟩⟩ := step_cases h
  · exact exec_keeps_inv hturn hexec
  · exact tick_keeps_inv hturn
  · exact hostStop_keeps_inv hturn

end Sys2Proof.Machine

/-! # Reset

What the boot sequence leaves (R30, R220, R270), and that it meets the invariant. -/

namespace Sys2Proof.Machine

theorem width_lores (a : Arch) : a.width false = 64 := by cases a <;> rfl

theorem height_lores (a : Arch) : a.height false = if a = .chip8hires then 64 else 32 := by cases a <;> rfl

theorem planes_ne_zero (a : Arch) : a.planes ≠ 0 := by cases a <;> decide

theorem pixelAt_replicate_blank (k w h p y x : Nat) : pixelAt (List.replicate k (Plane.blank w h)) p y x = false := by
  unfold pixelAt
  by_cases hp : p < k
  · rw [List.getD_replicate _ hp, Plane.bit_blank]
  · rw [List.getD_eq_default _ _ (by simpa using hp), Plane.bit_nil]

theorem resetWith_fbWf (c : Config) : (State.resetWith c).FbWf :=
  ⟨List.length_replicate, fun pl hpl => by rw [List.eq_of_mem_replicate hpl]; exact Plane.blank_hasSize _ _⟩

/-- Settles O8: the framebuffer is blank at the lo-res geometry; the rest is read off the reset record. -/
theorem resetValues : Obligations.ResetValues := by
  intro c
  refine ⟨pixelAt_replicate_blank _ _ _, resetWith_fbWf c, rfl, rfl, rfl, rfl, rfl, rfl, rfl, rfl, ?_, rfl, rfl,
    fun _ => rfl, rfl, ?_⟩
  · exact fun r => Vector.getElem_replicate r.isLt
  · show [Output.setMode (c.arch.width false) (c.arch.height false) _, _, _] = _
    rw [width_lores, height_lores]

/-- Settles O9: memory is empty, the framebuffer blank, and PM 1 is a mask of every dialect, as each has a plane. -/
theorem resetMeetsInvariant : Obligations.ResetMeetsInvariant := fun c =>
  { mem_wf := ⟨.nil, nofun⟩
    mem_inside := nofun
    fb_wf := resetWith_fbWf c
    pm_range := Nat.one_lt_two_pow (planes_ne_zero c.arch)
    pm_one := fun _ => rfl
    hires_capable := nofun
    vt_small := Nat.zero_le 1
    wait_off := fun _ => ⟨rfl, rfl⟩
    gate_sent := rfl }

end Sys2Proof.Machine

/-! # Who writes memory, the configuration and the block -/

namespace Sys2Proof.Machine

/-- Settles O49: the turn taken, then each of the three events, leaves both as they were. -/
theorem noStepWritesMemoryOrConfig : Obligations.NoStepWritesMemoryOrConfig := by
  intro s t h
  obtain ⟨-, ⟨-, i, hexec⟩ | ⟨-, rfl⟩ | ⟨-, rfl⟩⟩ := step_cases h
  · have hans := exec_answer hexec
    exact ⟨hans.mem.trans (takeTurn_mem s), hans.cfg.trans (takeTurn_cfg s)⟩
  · simp
  · simp

/-- An answer of `exec` leaves the block as it was, or as the command's own rule makes it. -/
theorem ExecAnswer.blk {i : Instr} {s t : State} (h : ExecAnswer i s t) :
    t.blk = s.blk ∨ t.blk = (commandResult i s).blk := by
  cases h with
  | context | trap => exact .inl rfl
  | invalid => exact .inl (raiseInvalid_frame s _).1
  | done | stall => exact .inr (by simp)

/-! ### DXYN's part of the block: the framebuffer, and VT and WAIT under SPRITE_DELAY (R150, R153) -/

section
variable {c : Config} {b : Block} {m : Memory} {vx vy : Byte} {i : Word} {n : Nibble} {r : Result}

theorem DrwAnswer.blk_frame (h : DrwAnswer c b m vx vy i n r) :
    r.blk = { b with fb := r.blk.fb, vt := r.blk.vt, wait := r.blk.wait } := by
  cases h <;> rfl

theorem DrwAnswer.spriteDelay_of_ne (h : DrwAnswer c b m vx vy i n r)
    (hne : r.blk.vt ≠ b.vt ∨ r.blk.wait ≠ b.wait) : c.spriteDelay = true := by
  cases h with
  | arm hdelay => exact hdelay
  | wait hdelay => exact hdelay
  | outOfRange => simp at hne
  | draw =>
    by_contra hoff
    simp [hoff] at hne

end

/-! ### The writer of each piece of block state -/

section
variable {i : Instr} {s : State}

theorem plane_of_commandResult_pm_ne (h : (commandResult i s).blk.pm ≠ s.blk.pm) : ∃ n, i = .plane n := by
  cases i with
  | plane n => exact ⟨n, rfl⟩
  | drw => exact absurd (congrArg Block.pm drwResult_answer.blk_frame) h
  | _ => exact absurd rfl h

theorem mode_of_commandResult_hires_ne (h : (commandResult i s).blk.hires ≠ s.blk.hires) : i = .low ∨ i = .high := by
  cases i with
  | low => exact .inl rfl
  | high => exact .inr rfl
  | drw => exact absurd (congrArg Block.hires drwResult_answer.blk_frame) h
  | _ => exact absurd rfl h

theorem ldDtVx_of_commandResult_dt_ne (h : (commandResult i s).blk.dt ≠ s.blk.dt) : ∃ x, i = .ldDtVx x := by
  cases i with
  | ldDtVx x => exact ⟨x, rfl⟩
  | drw => exact absurd (congrArg Block.dt drwResult_answer.blk_frame) h
  | _ => exact absurd rfl h

theorem ldStVx_of_commandResult_st_ne (h : (commandResult i s).blk.st ≠ s.blk.st) : ∃ x, i = .ldStVx x := by
  cases i with
  | ldStVx x => exact ⟨x, rfl⟩
  | drw => exact absurd (congrArg Block.st drwResult_answer.blk_frame) h
  | _ => exact absurd rfl h

theorem drw_of_commandResult_vt_or_wait_ne
    (h : (commandResult i s).blk.vt ≠ s.blk.vt ∨ (commandResult i s).blk.wait ≠ s.blk.wait) :
    s.cfg.spriteDelay = true ∧ ∃ x y n, i = .drw x y n := by
  cases i with
  | drw x y n => exact ⟨drwResult_answer.spriteDelay_of_ne h, x, y, n, rfl⟩
  | _ => exact h.elim (absurd rfl) (absurd rfl)

theorem fbWriter_of_commandResult_fb_ne (h : (commandResult i s).blk.fb ≠ s.blk.fb) :
    i = .cls ∨ i = .low ∨ i = .high ∨ i = .scr ∨ i = .scl ∨ (∃ n, i = .scd n) ∨ (∃ n, i = .scu n) ∨
      ∃ x y n, i = .drw x y n := by
  cases i with
  | cls | low | high | scr | scl | scd | scu | drw => simp
  | _ => exact absurd rfl h

end

/-- Settles O50: the block is unchanged or what the command's own rule makes it, and each rule writes its own piece. -/
theorem whoWritesBlockState : Obligations.WhoWritesBlockState := by
  intro i s t h
  obtain hblk | hblk := (exec_answer h).blk
  · simp [hblk]
  · rw [hblk]
    exact ⟨plane_of_commandResult_pm_ne, mode_of_commandResult_hires_ne, ldDtVx_of_commandResult_dt_ne,
      ldStVx_of_commandResult_st_ne, drw_of_commandResult_vt_or_wait_ne, fbWriter_of_commandResult_fb_ne⟩

end Sys2Proof.Machine

/-! # The layout of a sprite in memory

Which memory bit a sprite pixel is (R64, R65, R143 to R146). -/

namespace Sys2Proof.Machine

/-! ### The sprite's geometry (R143) -/

section
variable {c : Config} {b : Block} {n : Nibble}

theorem spriteShape_of_wide (hn : n = 0#4) (hwide : b.hires = true ∨ c.arch.isXo = true) :
    spriteShape c b n = { width := 16, rows := 16, rowBytes := 2 } := if_pos ⟨hn, hwide⟩

theorem spriteShape_of_narrow (h : ¬(n = 0#4 ∧ (b.hires = true ∨ c.arch.isXo = true))) :
    spriteShape c b n = { width := 8, rows := n.toNat, rowBytes := 1 } := if_neg h

end

/-- A sprite row is one byte or two side by side, a pixel to a bit. -/
theorem spriteShape_row (c : Config) (b : Block) (n : Nibble) :
    ((spriteShape c b n).width = 8 ∧ (spriteShape c b n).rowBytes = 1) ∨
      ((spriteShape c b n).width = 16 ∧ (spriteShape c b n).rowBytes = 2) := by
  by_cases h : n = 0#4 ∧ (b.hires = true ∨ c.arch.isXo = true)
  · exact .inr (by simp [spriteShape_of_wide h.1 h.2])
  · exact .inl (by simp [spriteShape_of_narrow h])

/-! ### The bits of a sprite row (R146) -/

section
variable {c : Config} {m : Memory} {g : Shape} {i : Word} {p r : Nat}

theorem testBit_rowBits_narrow (hrb : g.rowBytes = 1) (j : Nat) :
    (rowBits c m g i p r).testBit j = (spriteByte c m g i p r 0).getLsbD j := by
  rw [rowBits, if_pos hrb, BitVec.testBit_toNat]

/-- Of two bytes side by side the second is the low half, so the right one (R64). -/
theorem testBit_rowBits_wide (hrb : g.rowBytes = 2) (j : Nat) :
    (rowBits c m g i p r).testBit j =
      if j < 8 then (spriteByte c m g i p r 1).getLsbD j else (spriteByte c m g i p r 0).getLsbD (j - 8) := by
  rw [rowBits, if_neg (by omega), Nat.mul_comm]
  simp only [← BitVec.testBit_toNat]
  exact Nat.testBit_two_pow_mul_add _ (spriteByte c m g i p r 1).isLt j

theorem spriteBit_narrow (hw : g.width = 8) (hrb : g.rowBytes = 1) {k : Nat} (hk : k < 8) :
    spriteBit c m g i p r k = (spriteByte c m g i p r (k / 8)).getLsbD (7 - k % 8) := by
  rw [spriteBit, testBit_rowBits_narrow hrb, hw, Nat.div_eq_of_lt hk, Nat.mod_eq_of_lt hk]

theorem spriteBit_wide (hw : g.width = 16) (hrb : g.rowBytes = 2) {k : Nat} (hk : k < 16) :
    spriteBit c m g i p r k = (spriteByte c m g i p r (k / 8)).getLsbD (7 - k % 8) := by
  rw [spriteBit, testBit_rowBits_wide hrb, hw]
  by_cases hleft : k < 8
  · rw [if_neg (by omega), Nat.div_eq_of_lt hleft, Nat.mod_eq_of_lt hleft, show 16 - 1 - k - 8 = 7 - k by omega]
  · rw [if_pos (by omega), show k / 8 = 1 by omega, show 16 - 1 - k = 7 - k % 8 by omega]

end

/-- Column `k` of a sprite row is a bit of the row's byte `k / 8`, the most significant one leftmost (R65, R146). -/
theorem spriteBit_spriteShape (c : Config) (b : Block) (m : Memory) (i : Word) (n : Nibble) (p r : Nat) {k : Nat}
    (hk : k < (spriteShape c b n).width) :
    spriteBit c m (spriteShape c b n) i p r k =
      (spriteByte c m (spriteShape c b n) i p r (k / 8)).getLsbD (7 - k % 8) := by
  obtain ⟨hw, hrb⟩ | ⟨hw, hrb⟩ := spriteShape_row c b n
  · exact spriteBit_narrow hw hrb (hw ▸ hk)
  · exact spriteBit_wide hw hrb (hw ▸ hk)

/-- Settles O24: the bit by the two widths of a sprite row, the shapes by the two forms of `spriteShape`. -/
theorem spriteBitsComeFromMemory : Obligations.SpriteBitsComeFromMemory := by
  intro s n p r k hk
  refine ⟨spriteBit_spriteShape _ _ _ _ n p r hk, fun hn => ?_, spriteShape_of_wide, fun hn hlo hxo => ?_⟩
  · exact spriteShape_of_narrow fun h => hn h.1
  · rw [spriteShape_of_narrow (by simp [hlo, hxo]), hn]
    rfl

end Sys2Proof.Machine

/-! # The layout of the packed bitmaps

Where the framebuffer reader puts a pixel (R69, R200). -/

namespace Sys2Proof.Machine

theorem packPixels_getLsbD (f : Nat → Bool) {j : Nat} (hj : j < 8) : (packPixels f).getLsbD (7 - j) = f j := by
  have hmsb : (packPixels f).getMsbD j = [f 0, f 1, f 2, f 3, f 4, f 5, f 6, f 7].getD j false :=
    BitVec.getMsbD_ofBoolListBE
  rw [BitVec.getMsbD_eq_getLsbD, decide_eq_true hj, Bool.true_and] at hmsb
  rw [hmsb]
  interval_cases j <;> rfl

/-- In a row-major bitmap, the byte `x / 8` of row `y` holds the pixels of row `y` from column `8 * (x / 8)` on. -/
theorem packedByte_getLsbD (pl : Plane) {w x : Nat} (y : Nat) (hx : x / 8 < w / 8) :
    (packedByte w pl (y * (w / 8) + x / 8)).getLsbD (7 - x % 8) = pl.bit y x := by
  have hrow : (y * (w / 8) + x / 8) / (w / 8) = y := by
    rw [Nat.add_comm, Nat.add_mul_div_right _ _ (Nat.zero_lt_of_lt hx), Nat.div_eq_of_lt hx, Nat.zero_add]
  have hbyte : (y * (w / 8) + x / 8) % (w / 8) = x / 8 := by
    rw [Nat.mul_add_mod_self_right, Nat.mod_eq_of_lt hx]
  rw [packedByte, packPixels_getLsbD _ (Nat.mod_lt x (by decide)), hrow, hbyte, Nat.div_add_mod]

@[simp] theorem length_packedPlane (w h : Nat) (pl : Plane) : (packedPlane w h pl).length = h * (w / 8) := by
  simp [packedPlane]

theorem getD_packedPlane {w h k : Nat} (pl : Plane) (hk : k < h * (w / 8)) :
    (packedPlane w h pl).getD k 0#8 = packedByte w pl k := by
  simp [packedPlane, List.getD, hk]

/-- The pixels of a plane, read out of its bitmap: a row is whole bytes, so row `y` starts at byte `y * (w / 8)`. -/
theorem packedPlane_getLsbD (pl : Plane) {w h y x : Nat} (hw : 8 ∣ w) (hy : y < h) (hx : x < w) :
    ((packedPlane w h pl).getD (y * (w / 8) + x / 8) 0#8).getLsbD (7 - x % 8) = pl.bit y x := by
  have hx8 : x / 8 < w / 8 := Nat.div_lt_div_of_lt_of_dvd hw hx
  have hk : y * (w / 8) + x / 8 < h * (w / 8) :=
    calc y * (w / 8) + x / 8 < y * (w / 8) + w / 8 := Nat.add_lt_add_left hx8 _
      _ = (y + 1) * (w / 8) := (Nat.succ_mul y _).symm
      _ ≤ h * (w / 8) := Nat.mul_le_mul_right _ hy
  rw [getD_packedPlane pl hk, packedByte_getLsbD pl y hx8]

@[simp] theorem State.length_bitmaps (s : State) : s.bitmaps.length = s.cfg.arch.planes := by
  simp [State.bitmaps]

theorem State.getElem?_bitmaps (s : State) {p : Nat} (hp : p < s.cfg.arch.planes) :
    s.bitmaps[p]? = some (packedPlane s.width s.height (s.blk.fb.getD p [])) := by
  simp [State.bitmaps, hp]

/-- Settles O44: each exposed bitmap is a packed plane, and W is a multiple of 8 on every dialect. -/
theorem packedBitmapLayout : Obligations.PackedBitmapLayout := by
  intro s
  have hw : 8 ∣ s.width := width_dvd s.cfg.arch s.blk.hires
  refine ⟨s.length_bitmaps, fun p hp => ⟨_, s.getElem?_bitmaps hp, ?_, fun y x => packedPlane_getLsbD _ hw⟩⟩
  rw [length_packedPlane, Nat.mul_div_assoc _ hw]

end Sys2Proof.Machine

/-! # Encoding and decoding

`decodeWord` and `encodeWord` are inverse to each other, and the rows of the opcode table are what `decodeWord` splits
the words into (R80 to R88, R221 to R225). -/

namespace Sys2Proof

/-! ### Words written from their first nibble down (R81) -/

section
variable (op x : Nibble) (nn : Byte) (nnn : Addr12)

@[simp] theorem fieldOp_op_nnn : fieldOp (op ++ nnn) = op := BitVec.extractLsb'_append_eq_left

@[simp] theorem fieldNnn_op_nnn : fieldNnn (op ++ nnn) = nnn := BitVec.extractLsb'_append_eq_right

@[simp] theorem fieldOp_op_x_nn : fieldOp ((op ++ x) ++ nn) = op :=
  (BitVec.extractLsb'_append_eq_of_le (by decide)).trans BitVec.extractLsb'_append_eq_left

@[simp] theorem fieldX_op_x_nn : fieldX ((op ++ x) ++ nn) = x :=
  (BitVec.extractLsb'_append_eq_of_le (by decide)).trans BitVec.extractLsb'_append_eq_right

@[simp] theorem fieldNn_op_x_nn : fieldNn ((op ++ x) ++ nn) = nn := BitVec.extractLsb'_append_eq_right

end

section
variable {w : Word}

theorem eq_word_of_op_nnn {op : Nibble} (hop : fieldOp w = op) : op ++ fieldNnn w = w := by
  rw [← hop, ← word_eq_op_nnn]

theorem eq_word_of_op_x_nn {op x : Nibble} {nn : Byte} (hop : fieldOp w = op) (hx : fieldX w = x)
    (hnn : fieldNn w = nn) : (op ++ x) ++ nn = w := by
  rw [← hop, ← hx, ← hnn, ← word_eq_op_x_nn]

theorem eq_word_of_nibbles {op x y n : Nibble} (hop : fieldOp w = op) (hx : fieldX w = x) (hy : fieldY w = y)
    (hn : fieldN w = n) : wordOfNibbles op x y n = w := by
  rw [← hop, ← hx, ← hy, ← hn, wordOfNibbles_fields]

end

/-! ### Decoding an encoded word -/

/-- The rows with at most one nibble free are few words each; in the others the first nibble alone decides. -/
theorem decodeWord_encodeWord (i : Instr) : decodeWord (encodeWord i) = some i := by
  cases i with
  | cls | low | high | scr | scl => rfl
  | scd n | scu n | plane n => revert n; decide
  | ldVxDt x | ldDtVx x | ldStVx x => revert x; decide
  | drw | ldVxNn | ldINnn | jp | seVxNn | sneVxNn => simp [decodeWord, encodeWord]

/-- Settles O1: the two bytes of an instruction make its word, and that word decodes to it. -/
theorem decodeOfEncode : Obligations.DecodeOfEncode := by
  intro i rest
  show decode (highByte (encodeWord i) :: lowByte (encodeWord i) :: rest) = .ok (i, rest)
  rw [decode_cons, wordOfBytes_high_low, decodeWord_encodeWord]

/-! ### Encoding a decoded word -/

section
variable {w : Word} {i : Instr}

/-- Five words are fixed by `nn`; 00Cn and 00Dn are decided on `op[7:4]` (R83). -/
theorem encodeWord_of_decodeOp0 (hop : fieldOp w = 0x0#4) (h : decodeOp0 w = some i) : encodeWord i = w := by
  unfold decodeOp0 at h
  split_ifs at h with hx
  all_goals obtain rfl := Option.some.inj h
  iterate 5 exact eq_word_of_op_x_nn hop hx ‹_›
  iterate 2 exact eq_word_of_nibbles hop hx ‹_› rfl

theorem encodeWord_of_decodeOpF (hop : fieldOp w = 0xF#4) (h : decodeOpF w = some i) : encodeWord i = w := by
  unfold decodeOpF at h
  split_ifs at h
  all_goals
    obtain rfl := Option.some.inj h
    exact eq_word_of_op_x_nn hop rfl ‹_›

theorem encodeWord_of_decodeWord (h : decodeWord w = some i) : encodeWord i = w := by
  unfold decodeWord at h
  split_ifs at h with h0 h1 h3 h4 h6 hA hD hF
  · exact encodeWord_of_decodeOp0 h0 h
  · exact Option.some.inj h ▸ eq_word_of_op_nnn h1
  · exact Option.some.inj h ▸ eq_word_of_op_x_nn h3 rfl rfl
  · exact Option.some.inj h ▸ eq_word_of_op_x_nn h4 rfl rfl
  · exact Option.some.inj h ▸ eq_word_of_op_x_nn h6 rfl rfl
  · exact Option.some.inj h ▸ eq_word_of_op_nnn hA
  · exact Option.some.inj h ▸ eq_word_of_nibbles hD rfl rfl rfl
  · exact encodeWord_of_decodeOpF hF h

end

/-- Settles O2: each branch of the decoder tests the fields that the encoding writes. -/
theorem encodeOfDecodedWord : Obligations.EncodeOfDecodedWord := fun _ _ => encodeWord_of_decodeWord

/-! ### The rows of the opcode table (R84) -/

theorem hits_iff {r : OpcodeRow} {w : Word} : r.hits w = true ↔ w &&& r.mask = r.val := beq_iff_eq

/-- A word under a mask, nibble by nibble. -/
theorem fields_of_and_eq {w : Word} {a b c d a' b' c' d' : Nibble}
    (h : w &&& wordOfNibbles a b c d = wordOfNibbles a' b' c' d') :
    fieldOp w &&& a = a' ∧ fieldX w &&& b = b' ∧ fieldY w &&& c = c' ∧ fieldN w &&& d = d' := by
  rw [← wordOfNibbles_fields w, wordOfNibbles_and] at h
  simpa using wordOfNibbles_inj h

@[simp] theorem nibble_and_0xF (a : Nibble) : a &&& 0xF#4 = a := BitVec.and_allOnes

section
variable {w : Word}

/-! Each mask of the table leaves some nibbles of the word free and fixes the others. -/

theorem eq_of_mask_FFFF {v : Word} (h : w &&& 0xFFFF#16 = v) : v = w := h.symm.trans BitVec.and_allOnes

theorem eq_of_mask_FFF0 {op x y : Nibble} (h : w &&& 0xFFF0#16 = wordOfNibbles op x y 0x0#4) :
    wordOfNibbles op x y (fieldN w) = w := by
  obtain ⟨hop, hx, hy, -⟩ := fields_of_and_eq (a := 0xF#4) (b := 0xF#4) (c := 0xF#4) (d := 0x0#4) h
  exact eq_word_of_nibbles (by simpa using hop) (by simpa using hx) (by simpa using hy) rfl

theorem eq_of_mask_F0FF {op y n : Nibble} (h : w &&& 0xF0FF#16 = wordOfNibbles op 0x0#4 y n) :
    wordOfNibbles op (fieldX w) y n = w := by
  obtain ⟨hop, -, hy, hn⟩ := fields_of_and_eq (a := 0xF#4) (b := 0x0#4) (c := 0xF#4) (d := 0xF#4) h
  exact eq_word_of_nibbles (by simpa using hop) rfl (by simpa using hy) (by simpa using hn)

theorem fieldOp_of_mask_F000 {op : Nibble} (h : w &&& 0xF000#16 = wordOfNibbles op 0x0#4 0x0#4 0x0#4) :
    fieldOp w = op := by
  obtain ⟨hop, -⟩ := fields_of_and_eq (a := 0xF#4) (b := 0x0#4) (c := 0x0#4) (d := 0x0#4) h
  simpa using hop

end

/-- A word of an instruction's row is the word of an instruction of that row, with the free nibbles as operands. -/
theorem exists_encodeWord_of_row_hits {i : Instr} {w : Word} (h : i.row.hits w = true) :
    ∃ j, encodeWord j = w ∧ j.row = i.row := by
  have hm : w &&& i.row.mask = i.row.val := hits_iff.mp h
  cases i with
  | cls => exact ⟨.cls, eq_of_mask_FFFF hm, rfl⟩
  | low => exact ⟨.low, eq_of_mask_FFFF hm, rfl⟩
  | high => exact ⟨.high, eq_of_mask_FFFF hm, rfl⟩
  | scr => exact ⟨.scr, eq_of_mask_FFFF hm, rfl⟩
  | scl => exact ⟨.scl, eq_of_mask_FFFF hm, rfl⟩
  | scd => exact ⟨.scd (fieldN w), eq_of_mask_FFF0 hm, rfl⟩
  | scu => exact ⟨.scu (fieldN w), eq_of_mask_FFF0 hm, rfl⟩
  | plane => exact ⟨.plane (fieldX w), eq_of_mask_F0FF hm, rfl⟩
  | ldVxDt => exact ⟨.ldVxDt (regOf (fieldX w)), eq_of_mask_F0FF hm, rfl⟩
  | ldDtVx => exact ⟨.ldDtVx (regOf (fieldX w)), eq_of_mask_F0FF hm, rfl⟩
  | ldStVx => exact ⟨.ldStVx (regOf (fieldX w)), eq_of_mask_F0FF hm, rfl⟩
  | drw => exact ⟨.drw (regOf (fieldX w)) (regOf (fieldY w)) (fieldN w),
      eq_word_of_nibbles (fieldOp_of_mask_F000 hm) rfl rfl rfl, rfl⟩
  | ldVxNn => exact ⟨.ldVxNn (regOf (fieldX w)) (fieldNn w),
      eq_word_of_op_x_nn (fieldOp_of_mask_F000 hm) rfl rfl, rfl⟩
  | seVxNn => exact ⟨.seVxNn (regOf (fieldX w)) (fieldNn w),
      eq_word_of_op_x_nn (fieldOp_of_mask_F000 hm) rfl rfl, rfl⟩
  | sneVxNn => exact ⟨.sneVxNn (regOf (fieldX w)) (fieldNn w),
      eq_word_of_op_x_nn (fieldOp_of_mask_F000 hm) rfl rfl, rfl⟩
  | ldINnn => exact ⟨.ldINnn (fieldNnn w), eq_word_of_op_nnn (fieldOp_of_mask_F000 hm), rfl⟩
  | jp => exact ⟨.jp (fieldNnn w), eq_word_of_op_nnn (fieldOp_of_mask_F000 hm), rfl⟩

open Laws.EncodesInRow in
theorem row_hits_encodeWord : ∀ i : Instr, i.row.hits (encodeWord i) = true
  | .cls => cls | .low => low | .high => high | .scr => scr | .scl => scl
  | .scd n => scd n | .scu n => scu n | .plane n => plane n | .drw x y n => drw x y n
  | .ldVxDt x => ldVxDt x | .ldDtVx x => ldDtVx x | .ldStVx x => ldStVx x
  | .ldVxNn x nn => ldVxNn x nn | .ldINnn nnn => ldINnn nnn | .jp nnn => jp nnn
  | .seVxNn x nn => seVxNn x nn | .sneVxNn x nn => sneVxNn x nn

/-- Settles O3: a word of a row is an encoding of that row, and `decodeWord` and `encodeWord` are inverse. -/
theorem wordDecodesToRowItMatches : Obligations.WordDecodesToRowItMatches := by
  intro w r hr
  obtain ⟨i, -, rfl⟩ := List.mem_map.mp hr
  constructor
  · intro h
    obtain ⟨j, rfl, hj⟩ := exists_encodeWord_of_row_hits h
    exact ⟨j, decodeWord_encodeWord j, hj⟩
  · rintro ⟨j, hj, hrow⟩
    rw [← hrow, ← encodeWord_of_decodeWord hj]
    exact row_hits_encodeWord j

/-- Settles O4: each word is evaluated. -/
theorem sampleWordsDecode : Obligations.SampleWordsDecode := by
  unfold Obligations.SampleWordsDecode
  decide

end Sys2Proof

/-! # What `exec` answers, and the word placed for the next step -/

namespace Sys2Proof.Machine

/-! ### Every instruction answers (R8, R9) -/

theorem exists_retire (w : Word) (r : Result) (s : State) : ∃ t, retire w r s = .next t := by
  cases h : r.status with
  | done => exact ⟨_, retire_done s h⟩
  | stall => exact ⟨_, retire_stall s h⟩
  | invalid => exact ⟨_, retire_invalid s h⟩
  | trap k => exact ⟨_, retire_trap s h⟩

/-- Settles O48: a context row always answers, and a block command answers as the CPU does to its result. -/
theorem everyInstructionAnswersNext : Obligations.EveryInstructionAnswersNext := by
  intro i s
  cases hi : i.isBlockCommand with
  | false =>
    obtain ⟨c, hc⟩ := exec_cpu s hi
    exact ⟨_, hc⟩
  | true =>
    rw [exec_block s hi]
    exact exists_retire _ _ s

/-! ### Invalid (R241, R244) -/

theorem raiseInvalid_life (w : Word) (s : State) :
    (raiseInvalid w s).life = if s.cfg.debugSkip then s.life else .trapped (.invalidOpcode w s.cpu.pc) := by
  unfold raiseInvalid; split <;> rfl

/-- Settles O46: a command that is not accepted answers `raiseInvalid`, whose frame, life and outputs are known. -/
theorem unacceptedCommandIsInvalid : Obligations.UnacceptedCommandIsInvalid := by
  intro i s ha
  obtain ⟨hblk, hcfg, hmem, hcpu, hsched, -, -⟩ := raiseInvalid_frame s (encodeWord i)
  refine ⟨_, exec_unaccepted s ha, hblk, raiseInvalid_getV _ s, raiseInvalid_i _ s, fun a => by rw [hmem], hcfg, hsched,
    by rw [raiseInvalid_gateSent, hblk], fun hskip => ?_, fun hskip => ⟨?_, ?_, ?_⟩⟩
  · simp [raiseInvalid_life, hskip]
  · simp [raiseInvalid_life, hskip]
  · rw [hcpu, advance_pc]
  · simp [raiseInvalid_out, hskip]

/-! ### The step of a machine whose turn is a CPU cycle -/

theorem takeTurn_event_congr {s t : State} (h : t.schedule = s.schedule) : t.takeTurn.1 = s.takeTurn.1 := by
  unfold State.takeTurn; rw [h]; split <;> rfl

theorem step_of_cycle {s : State} {i : Instr} (hl : s.life = .running) (ht : s.takeTurn.1 = .cycle)
    (hin : s.cpu.pc + 1 < s.cfg.arch.memSize) (hi : decodeWord (s.readWord s.cpu.pc) = some i) :
    step s = exec i s.takeTurn.2 := by
  have hin' : s.takeTurn.2.wordInMemory s.takeTurn.2.cpu.pc = true := by simpa [State.wordInMemory] using hin
  have hi' : decodeWord (s.takeTurn.2.readWord s.takeTurn.2.cpu.pc) = some i := by simpa [State.readWord] using hi
  calc step s = s.runTurn := by rw [step, hl]
    _ = s.takeTurn.2.cycle := by rw [State.runTurn, ht]; rfl
    _ = exec i s.takeTurn.2 := cycle_decoded hin' hi'

/-! ### The word that `withFetchWord` places (log 11) -/

theorem readWord_setMem_writeBytes {s : State} (hm : s.mem.wf) (a : Nat) (w : Word) :
    (s.setMem (s.mem.writeBytes a [highByte w, lowByte w])).readWord a = w := by
  simp [State.readWord, Memory.read_writeBytes hm]

theorem nextIsCycle_eq (s : State) :
    ∃ ts, s.nextIsCycle = s.setSchedule ts ∧ (s.setSchedule ts).takeTurn.1 = .cycle := by
  unfold State.nextIsCycle
  split
  next hturn => exact ⟨s.schedule, rfl, hturn⟩
  next => exact ⟨_, rfl, rfl⟩
  next => exact ⟨_, rfl, rfl⟩

theorem lt_memSize_of_reset (a : Arch) : 0x200 + 1 < a.memSize := by cases a <;> decide

/-- The word goes to an address inside memory, to which PC points, and a CPU cycle comes next. -/
theorem placeWord_eq (s : State) (w : Word) : ∃ ts pc, pc + 1 < s.cfg.arch.memSize ∧
    ((s.setLife .running).setSchedule ts).takeTurn.1 = .cycle ∧ s.placeWord w =
      (((s.setLife .running).setSchedule ts).setPc pc).setMem (s.mem.writeBytes pc [highByte w, lowByte w]) := by
  obtain ⟨ts, hts, hturn⟩ := nextIsCycle_eq (s.setLife .running)
  unfold State.placeWord
  rw [hts]
  by_cases hin : s.cpu.pc + 1 < s.cfg.arch.memSize
  · exact ⟨ts, s.cpu.pc, hin, hturn, by simp [State.wordInMemory, hin]; rfl⟩
  · exact ⟨ts, 0x200, lt_memSize_of_reset _, hturn, by simp [State.wordInMemory, hin]⟩

theorem ofNat_toNat_mod (w : Word) : BitVec.ofNat 16 (w.toNat % 2 ^ 16) = w := by
  rw [Nat.mod_eq_of_lt w.isLt, BitVec.ofNat_toNat, BitVec.setWidth_eq]

theorem withFetchWord_toNat (s : State) (w : Word) : s.withFetchWord 16 w.toNat = s.placeWord w := by
  rw [State.withFetchWord, ofNat_toNat_mod]

theorem decodeTableWord_encodeWord (i : Instr) : decodeTableWord 16 (encodeWord i).toNat = some i := by
  rw [decodeTableWord, ofNat_toNat_mod, show [_, _] = encode i ++ [] from rfl, decodeOfEncode]

/-- Settles O7: the placed word reads back from memory at PC, and decodes to the instruction it encodes (O1). -/
theorem placedWordRunsNext : Obligations.PlacedWordRunsNext := by
  intro s i hm
  obtain ⟨ts, pc, hin, hturn, heq⟩ := placeWord_eq s (encodeWord i)
  have hcycle : (s.placeWord (encodeWord i)).takeTurn.1 = .cycle :=
    (takeTurn_event_congr (by rw [heq]; rfl)).trans hturn
  have hword := readWord_setMem_writeBytes (s := ((s.setLife .running).setSchedule ts).setPc pc) hm pc (encodeWord i)
  rw [withFetchWord_toNat]
  rw [heq] at hcycle ⊢
  refine ⟨_, step_of_cycle rfl hcycle hin ((congrArg decodeWord hword).trans (decodeWord_encodeWord i)), ?_, ?_, ?_, ?_,
    fun r => ?_, decodeTableWord_encodeWord i⟩ <;> simp [State.getV]

end Sys2Proof.Machine

/-! # Commands that complete

The state that status Done leaves (R9, R189), in the form that the statements about single commands speak of it, and the
display control commands CLS, LOW, HIGH and PLANE (R100 to R106). -/

namespace Sys2Proof.Machine

/-- The state the CPU leaves when a command answers Done with result `r` (R9, R189). -/
def State.afterDone (s : State) (r : Result) : State :=
  (((s.setBlk r.blk).performWrite r.write).advance.setOut r.calls).evalGate

section
variable (s : State) (r : Result)

@[simp] theorem afterDone_cfg : (s.afterDone r).cfg = s.cfg := by simp [State.afterDone]

@[simp] theorem afterDone_blk : (s.afterDone r).blk = r.blk := by simp [State.afterDone]

theorem afterDone_out : ∃ gate, (s.afterDone r).out = r.calls ++ gate := ⟨_, rfl⟩

theorem afterDone_completed : Completed s (s.afterDone r) := by simp [Completed, Frame, State.afterDone]

theorem afterDone_vKept {r : Result} (hw : r.write = none) : VKept s (s.afterDone r) := fun x => by
  simp [State.afterDone, hw]

theorem exec_done {i : Instr} (hi : i.isBlockCommand = true) (ha : i.wellFormedOn s.cfg.arch = true)
    (hs : (commandResult i s).status = .done) : exec i s = .next (s.afterDone (commandResult i s)) :=
  (exec_accepted s hi ha).trans (retire_done s hs)

end

/-! ### CLS (R100) -/

theorem decodeWord_eq_cls {w : Word} : decodeWord w = some .cls ↔ w = 0x00E0#16 :=
  ⟨fun h => (encodeWord_of_decodeWord h).symm, fun h => h ▸ decodeWord_encodeWord .cls⟩

/-- Blanking a set of planes: a plane that the framebuffer does not have reads 0 before and after. -/
theorem pixelAt_mapPlanes_blank (sel : Nat → Bool) (w h : Nat) (fb : List Plane) (p y x : Nat) :
    pixelAt (mapPlanes sel (fun _ => Plane.blank w h) fb) p y x = if sel p then false else pixelAt fb p y x := by
  rw [pixelAt_mapPlanes, Plane.bit_blank]
  by_cases hp : p < fb.length
  · simp [hp]
  · have hnone : pixelAt fb p y x = false := by
      rw [pixelAt, List.getD_eq_default _ _ (Nat.le_of_not_lt hp), Plane.bit_nil]
    simp [hnone]

theorem selected_zero {c : Config} {b : Block} (hnp : c.arch.planes = 1) (hpm : b.pm = 1#4) :
    selected c b 0 = true := by
  simp [selected, hnp, hpm]

theorem pixelAt_clsResult (c : Config) (b : Block) (p y x : Nat) :
    pixelAt (clsResult c b).blk.fb p y x = if selected c b p then false else pixelAt b.fb p y x :=
  pixelAt_mapPlanes_blank _ _ _ _ p y x

/-- Settles O12: CLS always completes, and blanks the selected planes; PM = 1 selects the only plane there is. -/
theorem clsClearsSelectedPlanes : Obligations.ClsClearsSelectedPlanes := by
  refine ⟨fun w => decodeWord_eq_cls, fun s => ?_⟩
  refine ⟨_, exec_done s rfl rfl rfl, afterDone_completed s _, afterDone_vKept s rfl, ?_,
    fun p y x _ _ => ?_, fun hnp hpm y x _ _ => ?_⟩
  · rw [OnlyFb, afterDone_blk]; rfl
  · rw [afterDone_blk]
    exact pixelAt_clsResult _ _ p y x
  · rw [afterDone_blk]
    exact (pixelAt_clsResult _ _ 0 y x).trans (if_pos (selected_zero hnp hpm))

/-! ### LOW and HIGH (R101 to R103) -/

theorem exec_mode {s : State} (ha : s.cfg.arch.accepts .schip = true) (hok : s.displayOk = true) (hi : Bool) :
    exec (if hi then .high else .low) s = .next (s.afterDone (modeResult s.cfg s.blk hi s.displayOk)) := by
  cases hi with
  | true => exact exec_done (i := .high) s rfl ha (if_pos hok)
  | false => exact exec_done (i := .low) s rfl ha (if_pos hok)

/-- Where there is a hi-res mode, the two geometries are those of R32 on every dialect. -/
theorem geometry_of_hiresCapable {a : Arch} (h : a.hiresCapable = true) (hi : Bool) :
    a.width hi = (if hi then 128 else 64) ∧ a.height hi = (if hi then 64 else 32) := by
  cases a with
  | chip8 | chip8hires => cases h
  | _ => exact ⟨rfl, rfl⟩

theorem modeResult_fb_hasSize (c : Config) (b : Block) (hi ok : Bool) :
    ∀ pl ∈ (modeResult c b hi ok).blk.fb, Plane.HasSize (c.arch.width hi) (c.arch.height hi) pl := fun pl hpl => by
  rw [List.eq_of_mem_replicate hpl]
  exact Plane.blank_hasSize _ _

/-- Settles O13: with a Display port that answers a mode change completes, with blank planes of the new geometry. -/
theorem modeChangeClearsAndReports : Obligations.ModeChangeClearsAndReports := by
  intro s hi ha hok
  obtain ⟨hwidth, hheight⟩ := geometry_of_hiresCapable ha hi
  have hw : (s.afterDone (modeResult s.cfg s.blk hi s.displayOk)).width = s.cfg.arch.width hi := by
    rw [State.width, afterDone_cfg, afterDone_blk]; rfl
  have hh : (s.afterDone (modeResult s.cfg s.blk hi s.displayOk)).height = s.cfg.arch.height hi := by
    rw [State.height, afterDone_cfg, afterDone_blk]; rfl
  refine ⟨_, exec_mode ha hok hi, afterDone_completed s _, afterDone_vKept s rfl, ?_, ?_, fun p y x => ?_,
    hw.trans hwidth, hh.trans hheight, ?_⟩
  · rw [afterDone_blk]; rfl
  · rw [State.FbWf, hw, hh, afterDone_blk, afterDone_cfg]
    exact ⟨List.length_replicate, modeResult_fb_hasSize _ _ _ _⟩
  · rw [afterDone_blk]
    exact pixelAt_replicate_blank _ _ _ p y x
  · obtain ⟨gate, hout⟩ := afterDone_out s (modeResult s.cfg s.blk hi s.displayOk)
    rw [hw, hh, hout]
    rfl

/-! ### PLANE (R106) -/

theorem planeMask_toNat (c : Config) (n : Nibble) : (planeMask c n).toNat = n.toNat % 2 ^ c.arch.planes := by
  rw [planeMask, BitVec.toNat_ofNat]
  exact Nat.mod_eq_of_lt (Nat.lt_of_le_of_lt (Nat.mod_le _ _) n.isLt)

/-- Settles O15: PLANE completes on the XO dialects, and a nibble holds the truncated mask. -/
theorem planeSetsMask : Obligations.PlaneSetsMask := by
  intro n s hxo
  refine ⟨_, exec_done s rfl hxo rfl, afterDone_completed s _, afterDone_vKept s rfl, ?_, ?_⟩
  · rw [afterDone_blk]; rfl
  · rw [afterDone_blk]
    exact planeMask_toNat s.cfg n

end Sys2Proof.Machine

/-! # Planes that are not selected

What they hold makes no difference to what an instruction answers, nor to what the selected planes hold afterwards. -/

namespace Sys2Proof.Machine

/-- Two framebuffers of as many planes, with the same contents of the planes of a set. -/
structure SamePlanes (sel : Nat → Bool) (fb fb' : List Plane) : Prop where
  length : fb'.length = fb.length
  getD : ∀ p, sel p = true → fb'.getD p [] = fb.getD p []

section
variable {sel : Nat → Bool} {fb fb' : List Plane}

theorem SamePlanes.refl (fb : List Plane) : SamePlanes sel fb fb := ⟨rfl, fun _ _ => rfl⟩

theorem SamePlanes.pixelAt (h : SamePlanes sel fb fb') {p : Nat} (hp : sel p = true) (y x : Nat) :
    Machine.pixelAt fb' p y x = Machine.pixelAt fb p y x := by
  unfold Machine.pixelAt; rw [h.getD p hp]

/-- Each plane is rewritten from its own contents alone, whichever set is rewritten. -/
theorem SamePlanes.mapPlanes (h : SamePlanes sel fb fb') (sel' : Nat → Bool) (f : Plane → Plane) :
    SamePlanes sel (Machine.mapPlanes sel' f fb) (Machine.mapPlanes sel' f fb') where
  length := by simp [h.length]
  getD p hp := by rw [getD_mapPlanes, getD_mapPlanes, h.length, h.getD p hp]

theorem SamePlanes.invertPixel (h : SamePlanes sel fb fb') (p y x : Nat) :
    SamePlanes sel (Machine.invertPixel fb p y x) (Machine.invertPixel fb' p y x) where
  length := by simp [h.length]
  getD q hq := by unfold Machine.invertPixel; rw [getD_modify, getD_modify, h.length, h.getD q hq]

/-- Pixels of the set's planes are drawn alike, and collide alike (R153, R154). -/
theorem SamePlanes.blitPixels (h : SamePlanes sel fb fb') {hits : List (Nat × Nat × Nat)}
    (hsel : ∀ q ∈ hits, sel q.1 = true) :
    SamePlanes sel (Machine.blitPixels fb hits).1 (Machine.blitPixels fb' hits).1 ∧
      (Machine.blitPixels fb' hits).2 = (Machine.blitPixels fb hits).2 := by
  induction hits generalizing fb fb' with
  | nil => exact ⟨h, rfl⟩
  | cons q hits ih =>
    obtain ⟨hq, hrest⟩ := List.forall_mem_cons.mp hsel
    obtain ⟨hfb, hcoll⟩ := ih (h.invertPixel q.1 q.2.1 q.2.2) hrest
    rw [blitPixels_cons, blitPixels_cons]
    exact ⟨hfb, congrArg₂ (· || ·) (h.pixelAt hq _ _) hcoll⟩

end

/-! ### One framebuffer put in place of another -/

/-- The block with another framebuffer. -/
def Block.withFb (b : Block) (fb : List Plane) : Block := { b with fb := fb }

/-- The machine with another framebuffer. -/
def State.withFb (s : State) (fb : List Plane) : State := s.setBlk (s.blk.withFb fb)

/-- The result with another framebuffer. -/
def Result.withFb (r : Result) (fb : List Plane) : Result := { r with blk := r.blk.withFb fb }

/-- `r'` is `r` but for the contents of planes outside the set. -/
def Result.Agrees (sel : Nat → Bool) (r r' : Result) : Prop :=
  ∃ fb, r' = r.withFb fb ∧ SamePlanes sel r.blk.fb fb

/-! What the CPU does to a machine looks at no pixel. -/

theorem afterDone_withFb (s : State) (r : Result) (fb g : List Plane) :
    (s.withFb fb).afterDone (r.withFb g) = (s.afterDone r).withFb g := by
  obtain ⟨b, status, write, calls⟩ := r
  cases write <;> rfl

theorem raiseInvalid_withFb (w : Word) (s : State) (fb : List Plane) :
    raiseInvalid w (s.withFb fb) = (raiseInvalid w s).withFb fb := by
  have hskip : (s.withFb fb).cfg.debugSkip = s.cfg.debugSkip := rfl
  unfold raiseInvalid
  rw [hskip]
  split <;> rfl

theorem skipIf_withFb (cond : Bool) (s : State) (fb : List Plane) :
    skipIf cond (s.withFb fb) = (skipIf cond s).withFb fb := by
  cases cond <;> rfl

theorem skipIf_blk (cond : Bool) (s : State) : (skipIf cond s).blk = s.blk := by cases cond <;> rfl

/-! ### Results that agree -/

/-- A refused command gives the block back as it was (R85). -/
theorem Result.Agrees.accept {sel : Nat → Bool} {b : Block} {fb : List Plane} {r r' : Result} (hr : r.Agrees sel r')
    (h : SamePlanes sel b.fb fb) {c : Config} (g : Group) :
    (Machine.accept c g b r).Agrees sel (Machine.accept c g (b.withFb fb) r') := by
  unfold Machine.accept
  split
  · exact hr
  · exact ⟨fb, rfl, h⟩

section
variable {c : Config} {b : Block} {fb : List Plane} (h : SamePlanes (selected c b) b.fb fb)
include h

/-- Only selected planes are drawn, so only those are tested for a collision (R146). -/
theorem drawSprite_withFb (m : Memory) (vx vy : Byte) (i : Word) (n : Nibble) :
    SamePlanes (selected c b) (drawSprite c b m vx vy i n).1 (drawSprite c (b.withFb fb) m vx vy i n).1 ∧
      (drawSprite c (b.withFb fb) m vx vy i n).2 = (drawSprite c b m vx vy i n).2 :=
  h.blitPixels fun _ hq => (mem_spriteHits.mp hq).1

theorem blitResult_withFb (m : Memory) (vx vy : Byte) (i : Word) (n : Nibble) :
    (blitResult c b m vx vy i n).Agrees (selected c b) (blitResult c (b.withFb fb) m vx vy i n) := by
  obtain ⟨hfb, hcoll⟩ := drawSprite_withFb h m vx vy i n
  have hfail : strictFailure c (b.withFb fb) i n = strictFailure c b i n := rfl
  unfold blitResult
  rw [hfail, hcoll]
  cases strictFailure c b i n with
  | some a => exact ⟨_, rfl, h⟩
  | none => exact ⟨_, rfl, hfb⟩

theorem drwResult_withFb (m : Memory) (vx vy : Byte) (i : Word) (n : Nibble) :
    (drwResult c b m vx vy i n).Agrees (selected c b) (drwResult c (b.withFb fb) m vx vy i n) := by
  have hwait : (b.withFb fb).wait = b.wait := rfl
  have hvt : (b.withFb fb).vt = b.vt := rfl
  unfold drwResult
  rw [hwait, hvt]
  split_ifs
  · exact ⟨_, rfl, h⟩
  · exact ⟨_, rfl, h⟩
  · exact blitResult_withFb h m vx vy i n

end

section
variable {s t : State} {fb : List Plane}

/-- A mode change gives every plane its contents anew; the other commands but DXYN rewrite planes one by one or leave
them. -/
theorem commandResult_withFb (i : Instr) (h : SamePlanes (selected s.cfg s.blk) s.blk.fb fb) :
    (commandResult i s).Agrees (selected s.cfg s.blk) (commandResult i (s.withFb fb)) := by
  cases i with
  | cls | scr | scl | scd | scu => exact ⟨_, rfl, h.mapPlanes _ _⟩
  | low | high => exact ⟨_, rfl, .refl _⟩
  | drw x y n => exact drwResult_withFb h _ _ _ _ _
  | _ => exact ⟨_, rfl, h⟩

variable {sel : Nat → Bool} (h : SamePlanes sel s.blk.fb fb)
include h

/-- Done and Stall take the result's framebuffer, Invalid and Trap keep the state's. -/
theorem retire_withFb {w : Word} {r r' : Result} (hr : r.Agrees sel r') (ht : retire w r s = .next t) :
    ∃ g, retire w r' (s.withFb fb) = .next (t.withFb g) ∧ SamePlanes sel t.blk.fb g := by
  obtain ⟨rfb, rfl, hrfb⟩ := hr
  obtain ⟨hs, rfl⟩ | ⟨hs, rfl⟩ | ⟨hs, rfl⟩ | ⟨k, hs, rfl⟩ := retire_cases ht
  · exact ⟨rfb, (retire_done (r := r.withFb rfb) _ hs).trans (congrArg _ (afterDone_withFb s r fb rfb)),
      by simpa using hrfb⟩
  · exact ⟨rfb, retire_stall (r := r.withFb rfb) _ hs, hrfb⟩
  · exact ⟨fb, (retire_invalid (r := r.withFb rfb) _ hs).trans (congrArg _ (raiseInvalid_withFb w s fb)),
      by rw [(raiseInvalid_frame s w).1]; exact h⟩
  · exact ⟨fb, retire_trap (r := r.withFb rfb) _ hs, h⟩

/-- The CPU context rows see nothing of the block (R4). -/
theorem exec_context_withFb {i : Instr} (hi : i.isBlockCommand = false) (ht : exec i s = .next t) :
    ∃ g, exec i (s.withFb fb) = .next (t.withFb g) ∧ SamePlanes sel t.blk.fb g := by
  cases i with
  | ldVxNn | ldINnn | jp => obtain rfl := Host.Outcome.next.inj ht; exact ⟨fb, rfl, h⟩
  | seVxNn | sneVxNn =>
    obtain rfl := Host.Outcome.next.inj ht
    exact ⟨fb, congrArg _ (skipIf_withFb _ s fb), by rw [skipIf_blk]; exact h⟩
  | _ => cases hi

end

theorem exec_withFb {i : Instr} {s t : State} {fb : List Plane} (h : SamePlanes (selected s.cfg s.blk) s.blk.fb fb)
    (ht : exec i s = .next t) :
    ∃ g, exec i (s.withFb fb) = .next (t.withFb g) ∧ SamePlanes (selected s.cfg s.blk) t.blk.fb g := by
  cases hi : i.isBlockCommand with
  | false => exact exec_context_withFb h hi ht
  | true =>
    rw [exec_block _ hi] at ht ⊢
    exact retire_withFb h ((commandResult_withFb i h).accept h i.group) ht

/-- Settles O56: the result of the command's own rule agrees, and so does the CPU's answer to it. -/
theorem unselectedPlanesDoNotInterfere : Obligations.UnselectedPlanesDoNotInterfere := by
  intro i s fb hlen hget
  have h : SamePlanes (selected s.cfg s.blk) s.blk.fb fb := ⟨hlen, hget⟩
  obtain ⟨t, ht⟩ := everyInstructionAnswersNext i s
  obtain ⟨g, hu, hg⟩ := exec_withFb h ht
  exact ⟨t, t.withFb g, ht, hu, rfl, rfl, rfl, rfl, rfl, hg.getD⟩

end Sys2Proof.Machine

/-! # Scrolls

SCR, SCL, SCD and SCU (R120 to R128) differ in one thing: which pixel of a target plane each of its pixels is read from,
and where there is none. -/

namespace Sys2Proof.Machine

/-! ### The planes a scroll writes (R120) -/

theorem selected_eq_true {c : Config} {b : Block} {p : Nat} :
    selected c b p = true ↔ p < c.arch.planes ∧ b.pm.getLsbD p = true := by
  rw [selected, Bool.and_eq_true, decide_eq_true_eq]

/-- Settles O18: off the XO dialects every plane is a target, on them a selected one. -/
theorem scrollTargets : Obligations.ScrollTargets := by
  intro c b p
  cases hxo : c.arch.isXo with
  | false => simp [scrollTarget, hxo]
  | true => simp [scrollTarget, hxo, selected_eq_true]

/-! ### Moving the pixels of a set of planes -/

theorem pixelAt_of_length_le {fb : List Plane} {p : Nat} (hp : fb.length ≤ p) (y x : Nat) :
    pixelAt fb p y x = false := by
  rw [pixelAt, List.getD_eq_default _ _ hp, Plane.bit_nil]

/-- Planes rebuilt from moved pixels: pixel (x, y) is read from (col, row) where `inside` holds, and is 0 elsewhere. A
plane that the framebuffer does not have reads 0 before and after. -/
theorem pixelAt_mapPlanes_move {sel : Nat → Bool} {f : Plane → Plane} {w h : Nat} {inside : Nat → Nat → Prop}
    [DecidableRel inside] {row col : Nat → Nat → Nat}
    (hf : ∀ pl, f pl = Plane.build w h fun y x => if inside y x then pl.bit (row y x) (col y x) else false)
    (fb : List Plane) (p : Nat) {y x : Nat} (hy : y < h) (hx : x < w) :
    pixelAt (mapPlanes sel f fb) p y x =
      if sel p then (if inside y x then pixelAt fb p (row y x) (col y x) else false) else pixelAt fb p y x := by
  have hyx : y < h ∧ x < w := ⟨hy, hx⟩
  rw [pixelAt_mapPlanes, hf, Plane.bit_build, if_pos hyx]
  by_cases hp : p < fb.length
  · simp only [hp, true_and, pixelAt]
  · simp [hp, pixelAt_of_length_le (Nat.le_of_not_lt hp)]

/-- What a scroll that the dialect accepts does: it completes, and the target planes' pixels move (R120, R128). -/
theorem exec_scroll {i : Instr} {s : State} {f : Nat → Nat → Plane → Plane} {inside : Nat → Nat → Prop}
    [DecidableRel inside] {row col : Nat → Nat → Nat}
    (hi : i.isBlockCommand = true) (ha : i.wellFormedOn s.cfg.arch = true)
    (hr : commandResult i s = scrollResult s.cfg s.blk f)
    (hf : ∀ pl, f s.width s.height pl =
      Plane.build s.width s.height fun y x => if inside y x then pl.bit (row y x) (col y x) else false) :
    ∃ t, exec i s = .next t ∧ Completed s t ∧ VKept s t ∧ OnlyFb s t ∧
      ∀ p y x, y < s.height → x < s.width → pixelAt t.blk.fb p y x =
        if scrollTarget s.cfg s.blk p then (if inside y x then pixelAt s.blk.fb p (row y x) (col y x) else false)
        else pixelAt s.blk.fb p y x := by
  have hdone : exec i s = .next (s.afterDone (scrollResult s.cfg s.blk f)) := by
    rw [← hr]
    exact exec_done s hi ha (by rw [hr]; rfl)
  refine ⟨_, hdone, afterDone_completed s _, afterDone_vKept s rfl, ?_, fun p y x hy hx => ?_⟩
  · rw [OnlyFb, afterDone_blk]; rfl
  · rw [afterDone_blk]
    exact pixelAt_mapPlanes_move hf s.blk.fb p hy hx

/-! ### SCR and SCL (R121, R123, R124), SCD and SCU (R122, R125, R126) -/

/-- Settles O16: SCR reads each pixel kh to its left, SCL kh to its right. -/
theorem horizontalScrollMovesPixels : Obligations.HorizontalScrollMovesPixels := by
  intro s ha k hk
  obtain rfl : k = scrollH s.cfg s.blk := hk
  constructor
  · exact exec_scroll (f := fun w h => scrollRight w h (scrollH s.cfg s.blk))
      (inside := fun _ x => scrollH s.cfg s.blk ≤ x) (row := fun y _ => y)
      (col := fun _ x => x - scrollH s.cfg s.blk) rfl ha rfl fun _ => rfl
  · exact exec_scroll (f := fun w h => scrollLeft w h (scrollH s.cfg s.blk))
      (inside := fun _ x => x + scrollH s.cfg s.blk < s.width) (row := fun y _ => y)
      (col := fun _ x => x + scrollH s.cfg s.blk) rfl ha rfl fun _ => rfl

/-- Settles O17: SCD reads each pixel kv(n) above it, SCU kv(n) below it. -/
theorem verticalScrollMovesPixels : Obligations.VerticalScrollMovesPixels := by
  intro s n k hk
  obtain rfl : k = scrollV s.cfg s.blk n := hk
  constructor
  · intro ha
    exact exec_scroll (f := fun w h => scrollDown w h (scrollV s.cfg s.blk n))
      (inside := fun y _ => scrollV s.cfg s.blk n ≤ y)
      (row := fun y _ => y - scrollV s.cfg s.blk n) (col := fun _ x => x) rfl ha rfl fun _ => rfl
  · intro hxo
    exact exec_scroll (f := fun w h => scrollUp w h (scrollV s.cfg s.blk n))
      (inside := fun y _ => y + scrollV s.cfg s.blk n < s.height)
      (row := fun y _ => y + scrollV s.cfg s.blk n) (col := fun _ x => x) rfl hxo rfl fun _ => rfl

/-! ### Down and up again (R127) -/

theorem accepts_schip_of_isXo : ∀ {A : Arch}, A.isXo = true → A.accepts .schip = true
  | .xochip, _ | .xochip16, _ => rfl

/-! A step that changes the framebuffer alone keeps the geometry, the targets and the distance of the next scroll. -/

section
variable {s t : State} (hc : t.cfg = s.cfg) (hb : OnlyFb s t)
include hc hb

theorem width_of_onlyFb : t.width = s.width := by rw [State.width, hc, hb]; rfl

theorem height_of_onlyFb : t.height = s.height := by rw [State.height, hc, hb]; rfl

theorem scrollTarget_of_onlyFb (p : Nat) : scrollTarget t.cfg t.blk p = scrollTarget s.cfg s.blk p := by
  rw [hc, hb]; rfl

theorem scrollV_of_onlyFb (n : Nibble) : scrollV t.cfg t.blk n = scrollV s.cfg s.blk n := by rw [hc, hb]; rfl

end

/-- Settles O19: SCU reads row y + kv of what SCD left, which is row y of before; below the last such row it fills
with 0. -/
theorem scrollRoundTrip : Obligations.ScrollRoundTrip := by
  intro s n hxo
  obtain ⟨t, hdown, ⟨⟨hcfg, -⟩, -⟩, -, hfb, htpix⟩ :=
    (verticalScrollMovesPixels s n (scrollV s.cfg s.blk n) rfl).1 (accepts_schip_of_isXo hxo)
  obtain ⟨u, hup, -, -, -, hupix⟩ :=
    (verticalScrollMovesPixels t n (scrollV t.cfg t.blk n) rfl).2 (by rw [hcfg]; exact hxo)
  rw [scrollV_of_onlyFb hcfg hfb, height_of_onlyFb hcfg hfb, width_of_onlyFb hcfg hfb] at hupix
  refine ⟨t, u, hdown, hup, fun p y x hp hy hx => ?_⟩
  rw [hupix p y x hy hx, scrollTarget_of_onlyFb hcfg hfb, if_pos hp]
  by_cases hin : y + scrollV s.cfg s.blk n < s.height
  · rw [if_pos hin, if_pos hin, htpix p _ x hin hx, if_pos hp, if_pos (Nat.le_add_left _ y), Nat.add_sub_cancel]
  · rw [if_neg hin, if_neg hin]

end Sys2Proof.Machine

/-! # The blit

What DXYN answers in each of its forms (R140, R149 to R152, R158, R160), and what its pixels are (R147, R148,
R153 to R156). -/

namespace Sys2Proof.Machine

/-! ### The addresses a blit reads (R145, R151, R152) -/

section
variable {g : Shape} {i : Word}

theorem mem_spriteAddrs {planes : List Nat} {a : Nat} : a ∈ spriteAddrs g i planes ↔
    ∃ p r b, p ∈ planes ∧ r < g.rows ∧ b < g.rowBytes ∧ spriteAddr g i p r b = a := by
  simp only [spriteAddrs, List.mem_flatMap, List.mem_map, List.mem_range]
  constructor
  · rintro ⟨p, hp, r, hr, b, hb, ha⟩
    exact ⟨p, r, b, hp, hr, hb, ha⟩
  · rintro ⟨p, r, b, hp, hr, hb, ha⟩
    exact ⟨p, hp, r, hr, b, hb, ha⟩

/-- A byte of a row lies before the next row. -/
theorem rowOffset_lt {r r' b : Nat} (hr : r < r') (hb : b < g.rowBytes) :
    r * g.rowBytes + b < r' * g.rowBytes := by
  rw [Nat.mul_comm r]
  exact Nat.mul_add_lt_mul_of_lt_of_lt hr hb

/-- A byte of a sprite lies before the next plane's sprite. -/
theorem planeOffset_lt {p p' r b : Nat} (hp : p < p') (hr : r < g.rows) (hb : b < g.rowBytes) :
    p * g.size + (r * g.rowBytes + b) < p' * g.size := by
  rw [Nat.mul_comm p]
  exact Nat.mul_add_lt_mul_of_lt_of_lt hp (rowOffset_lt hr hb)

theorem spriteAddr_lt_of_row {p r r' b b' : Nat} (hr : r < r') (hb : b < g.rowBytes) :
    spriteAddr g i p r b < spriteAddr g i p r' b' := by
  have := rowOffset_lt hr hb
  unfold spriteAddr
  omega

theorem spriteAddr_lt_of_plane {p p' r r' b b' : Nat} (hp : p < p') (hr : r < g.rows) (hb : b < g.rowBytes) :
    spriteAddr g i p r b < spriteAddr g i p' r' b' := by
  have := planeOffset_lt hp hr hb
  unfold spriteAddr
  omega

/-- Addresses rise in the command's order: planes, rows, bytes. -/
theorem spriteAddrs_pairwise_lt {planes : List Nat} (hplanes : planes.Pairwise (· < ·)) :
    (spriteAddrs g i planes).Pairwise (· < ·) := by
  have rises (k : Nat) : (List.range k).Pairwise (· < ·) := List.pairwise_lt_range
  refine List.pairwise_flatMap.mpr ⟨fun p _ => List.pairwise_flatMap.mpr ⟨fun r _ => ?_, ?_⟩, ?_⟩
  · exact List.pairwise_map.mpr ((rises _).imp fun hb => Nat.add_lt_add_left hb _)
  · refine (rises _).imp fun hr a ha a' ha' => ?_
    obtain ⟨b, hb, rfl⟩ := List.mem_map.mp ha
    obtain ⟨b', -, rfl⟩ := List.mem_map.mp ha'
    exact spriteAddr_lt_of_row hr (List.mem_range.mp hb)
  · refine hplanes.imp fun hp a ha a' ha' => ?_
    obtain ⟨r, hr, ha⟩ := List.mem_flatMap.mp ha
    obtain ⟨b, hb, rfl⟩ := List.mem_map.mp ha
    obtain ⟨r', -, ha'⟩ := List.mem_flatMap.mp ha'
    obtain ⟨b', -, rfl⟩ := List.mem_map.mp ha'
    exact spriteAddr_lt_of_plane hp (List.mem_range.mp hr) (List.mem_range.mp hb)

end

/-- In a rising list, what a search finds is the least of what it looks for. -/
theorem not_of_lt_find? {l : List Nat} {q : Nat → Bool} {a a' : Nat} (hl : l.Pairwise (· < ·))
    (ha : l.find? q = some a) (ha' : a' ∈ l) (hlt : a' < a) : q a' = false := by
  obtain ⟨-, before, after, rfl, hbefore⟩ := List.find?_eq_some_iff_append.mp ha
  obtain hmem | hmem := List.mem_append.mp ha'
  · simpa using hbefore a' hmem
  · have hle : a ≤ a' := by
      obtain rfl | hmem := List.mem_cons.mp hmem
      · exact Nat.le_refl _
      · exact Nat.le_of_lt (List.rel_of_pairwise_cons (List.pairwise_append.mp hl).2.1 hmem)
    exact absurd hlt (Nat.not_lt.mpr hle)

theorem selectedPlanes_pairwise_lt (c : Config) (b : Block) : (selectedPlanes c b).Pairwise (· < ·) :=
  List.pairwise_lt_range.filter _

section
variable {s : State} {n : Nibble}

theorem mem_spriteAddrs_selectedPlanes {a : Nat} :
    a ∈ spriteAddrs (spriteShape s.cfg s.blk n) s.cpu.i (selectedPlanes s.cfg s.blk) ↔
      ∃ p r b, SpriteByteIn s n p r b ∧ spriteByteAddr s n p r b = a := by
  simp only [mem_spriteAddrs, mem_selectedPlanes, and_assoc]
  rfl

/-- The strict check finds nothing exactly when no address makes the command trap (R152). -/
theorem strictFailure_eq_none_iff : strictFailure s.cfg s.blk s.cpu.i n = none ↔ BlitInRange s n := by
  unfold strictFailure firstOutOfRange
  cases hstrict : s.cfg.strictBlitIndex with
  | false => exact iff_of_true rfl (.inl hstrict)
  | true =>
    simp only [hstrict, if_true, List.find?_eq_none, mem_spriteAddrs_selectedPlanes, BlitInRange, reduceCtorEq,
      false_or, decide_eq_true_eq, Nat.not_le]
    exact ⟨fun h p r b hin => h _ ⟨p, r, b, hin, rfl⟩, fun h a ⟨p, r, b, hin, ha⟩ => ha ▸ h p r b hin⟩

/-- What the strict check finds is the first address past memory: every smaller one lies inside (R152). -/
theorem strictFailure_eq_some {a : Nat} (h : strictFailure s.cfg s.blk s.cpu.i n = some a) :
    s.cfg.arch.memSize ≤ a ∧ (∃ p r b, SpriteByteIn s n p r b ∧ spriteByteAddr s n p r b = a) ∧
      ∀ p r b, SpriteByteIn s n p r b → spriteByteAddr s n p r b < a →
        spriteByteAddr s n p r b < s.cfg.arch.memSize := by
  unfold strictFailure firstOutOfRange at h
  split at h
  · refine ⟨by simpa using List.find?_some h, mem_spriteAddrs_selectedPlanes.mp (List.mem_of_find?_eq_some h),
      fun p r b hin hlt => ?_⟩
    have hsmall := not_of_lt_find? (spriteAddrs_pairwise_lt (selectedPlanes_pairwise_lt _ _)) h
      (mem_spriteAddrs_selectedPlanes.mpr ⟨p, r, b, hin, rfl⟩) hlt
    exact Nat.not_le.mp (of_decide_eq_false hsmall)
  · cases h

theorem spriteByteAddr_lt_of_lex {p r b p' r' b' : Nat} (hin : SpriteByteIn s n p' r' b')
    (hlex : p' < p ∨ p' = p ∧ (r' < r ∨ r' = r ∧ b' < b)) : spriteByteAddr s n p' r' b' < spriteByteAddr s n p r b := by
  obtain ⟨-, hr, hb⟩ := hin
  obtain hp | ⟨rfl, hr' | ⟨rfl, hb'⟩⟩ := hlex
  · exact spriteAddr_lt_of_plane (i := s.cpu.i) hp hr hb
  · exact spriteAddr_lt_of_row (i := s.cpu.i) hr' hb
  · exact Nat.add_lt_add_left hb' _

theorem planes_le_four (A : Arch) : A.planes ≤ 4 := by cases A <;> decide

/-- The sprite of one plane is at most 16 rows of 2 bytes (R143, R144). -/
theorem spriteShape_size_le (c : Config) (b : Block) (n : Nibble) : (spriteShape c b n).size ≤ 32 := by
  have hrows := (spriteShape_small c b n).2
  obtain ⟨-, hrb⟩ | ⟨-, hrb⟩ := spriteShape_row c b n <;> · rw [Shape.size, hrb]; omega

/-- Past the highest I lie at most four planes' sprites of 32 bytes (R145). -/
theorem spriteByteAddr_le {p r b : Nat} (hin : SpriteByteIn s n p r b) : spriteByteAddr s n p r b ≤ 0x1007E := by
  obtain ⟨hsel, hr, hb⟩ := hin
  have hp : p < 4 := Nat.lt_of_lt_of_le (selected_eq_true.mp hsel).1 (planes_le_four _)
  have hi : s.cpu.i.toNat < 2 ^ 16 := s.cpu.i.isLt
  have hsize := spriteShape_size_le s.cfg s.blk n
  have hrow : r * (spriteShape s.cfg s.blk n).rowBytes + b < (spriteShape s.cfg s.blk n).size := rowOffset_lt hr hb
  have hplane : p * (spriteShape s.cfg s.blk n).size ≤ 3 * 32 := Nat.mul_le_mul (Nat.le_of_lt_succ hp) hsize
  change s.cpu.i.toNat + p * (spriteShape s.cfg s.blk n).size + r * _ + b ≤ _
  omega

end

/-! ### The forms of DXYN -/

theorem exec_drw (x y : RegIx) (n : Nibble) (s : State) : exec (.drw x y n) s =
    retire (encodeWord (.drw x y n)) (drwResult s.cfg s.blk s.mem (s.getV x) (s.getV y) s.cpu.i n) s :=
  exec_accepted s rfl rfl

/-- Nothing waits, so the completing step is made (R150, R249). -/
theorem drwResult_of_ready {s : State} (hready : BlitReady s) (vx vy : Byte) (n : Nibble) :
    drwResult s.cfg s.blk s.mem vx vy s.cpu.i n = blitResult s.cfg s.blk s.mem vx vy s.cpu.i n := by
  obtain hoff | ⟨hwait, hvt⟩ := hready
  · simp [drwResult, hoff]
  · simp [drwResult, hwait, hvt]

theorem blitResult_of_inRange {s : State} {n : Nibble} (hrange : BlitInRange s n) (vx vy : Byte) :
    blitResult s.cfg s.blk s.mem vx vy s.cpu.i n =
      { blk := { s.blk with
          fb := (drawSprite s.cfg s.blk s.mem vx vy s.cpu.i n).1
          wait := if s.cfg.spriteDelay then false else s.blk.wait }
        status := .done
        write := some (regVF, collisionByte (drawSprite s.cfg s.blk s.mem vx vy s.cpu.i n).2)
        calls := [] } := by
  rw [blitResult, strictFailure_eq_none_iff.mpr hrange]

theorem blitResult_of_outOfRange {c : Config} {b : Block} {i : Word} {n : Nibble} {a : Nat}
    (hfail : strictFailure c b i n = some a) (m : Memory) (vx vy : Byte) : blitResult c b m vx vy i n =
      { blk := b, status := .trap (.indexOutOfRange a), write := none, calls := [] } := by
  rw [blitResult, hfail]

/-- What the sprite of `drw x y n` draws in this state, and the collision bit. -/
def State.drawn (s : State) (x y : RegIx) (n : Nibble) : List Plane × Bool :=
  drawSprite s.cfg s.blk s.mem (s.getV x) (s.getV y) s.cpu.i n

/-- `t` is what a completing `drw x y n` leaves of `s` (R140, R150, R158, R160). -/
structure BlitDone (x y : RegIx) (n : Nibble) (s t : State) : Prop where
  completed : Completed s t
  mem : t.mem = s.mem
  vKept : VKeptBut 15 s t
  vf : t.getV 15 = collisionByte (s.drawn x y n).2
  blk : t.blk = { s.blk with fb := (s.drawn x y n).1, wait := if s.cfg.spriteDelay then false else s.blk.wait }

theorem exec_drw_done (x y : RegIx) (n : Nibble) {s : State} (hready : BlitReady s) (hrange : BlitInRange s n) :
    ∃ t, exec (.drw x y n) s = .next t ∧ BlitDone x y n s t := by
  rw [exec_drw, drwResult_of_ready hready, blitResult_of_inRange hrange]
  exact ⟨_, rfl, afterDone_completed s _, rfl, fun r hr => setV_getV_other _ _ hr, setV_getV_same _ _ _, rfl⟩

theorem exec_drw_stall {x y : RegIx} {n : Nibble} {s : State} {b : Block}
    (hres : drwResult s.cfg s.blk s.mem (s.getV x) (s.getV y) s.cpu.i n =
      { blk := b, status := .stall, write := none, calls := [] }) :
    ∃ t, exec (.drw x y n) s = .next t ∧ t.blk = b ∧ t.cpu = s.cpu ∧ Frame s t ∧ t.gateSent = t.blk.toneGate := by
  rw [exec_drw, hres]
  exact ⟨_, rfl, rfl, rfl, ⟨rfl, fun _ => rfl, rfl, rfl, rfl, rfl⟩, rfl⟩

theorem collisionByte_eq_zero_or_one (coll : Bool) : collisionByte coll = 0#8 ∨ collisionByte coll = 1#8 := by
  cases coll <;> decide

theorem collisionByte_eq_one {coll : Bool} : collisionByte coll = 1#8 ↔ coll = true := by cases coll <;> decide

/-- Settles O20: the state that a completing blit leaves. -/
theorem blitCompletes : Obligations.BlitCompletes := by
  intro x y n s hready hrange
  obtain ⟨t, ht, hdone⟩ := exec_drw_done x y n hready hrange
  refine ⟨t, ht, hdone.completed, hdone.vKept, ?_, ?_, ?_⟩
  · rw [hdone.vf]; exact collisionByte_eq_zero_or_one _
  · rw [hdone.blk]
  · rw [hdone.blk]

/-- Settles O26: the strict check finds an address, the least one past memory, and addresses rise in the command's
order. -/
theorem strictBlitTraps : Obligations.StrictBlitTraps := by
  intro x y n s hready hstrict ⟨p₀, r₀, b₀, hin₀, hout₀⟩
  cases hfail : strictFailure s.cfg s.blk s.cpu.i n with
  | none =>
    obtain hoff | hall := strictFailure_eq_none_iff.mp hfail
    · rw [hstrict] at hoff; cases hoff
    · exact absurd (hall p₀ r₀ b₀ hin₀) (Nat.not_lt.mpr hout₀)
  | some a =>
    obtain ⟨hout, ⟨p, r, b, hin, rfl⟩, hfirst⟩ := strictFailure_eq_some hfail
    rw [exec_drw, drwResult_of_ready hready, blitResult_of_outOfRange hfail]
    exact ⟨_, p, r, b, rfl, rfl, hin, hout,
      fun p' r' b' hin' hlex => hfirst p' r' b' hin' (spriteByteAddr_lt_of_lex hin' hlex),
      spriteByteAddr_le hin, rfl, fun _ => rfl, rfl, fun _ => rfl⟩

/-- Settles O27: the two stalling forms. -/
theorem delayedBlitStalls : Obligations.DelayedBlitStalls := by
  intro x y n s hdelay
  constructor
  · intro hwait
    exact exec_drw_stall (if_pos ⟨hdelay, hwait⟩)
  · intro hwait hvt
    exact exec_drw_stall ((if_neg (by simp [hwait])).trans (if_pos ⟨hdelay, hvt⟩))

/-! ### What a blit reads of memory -/

/-- Sprites that agree on the selected planes' bytes hit the same pixels (R145, R146). -/
theorem spriteHits_congr {s : State} {n : Nibble} {m : Memory}
    (hm : ∀ p r b, SpriteByteIn s n p r b → m.read (spriteByteAddr s n p r b % s.cfg.arch.memSize) =
      s.mem.read (spriteByteAddr s n p r b % s.cfg.arch.memSize)) (x0 y0 : Nat) :
    spriteHits s.cfg s.blk m s.cpu.i x0 y0 (spriteShape s.cfg s.blk n) =
      spriteHits s.cfg s.blk s.mem s.cpu.i x0 y0 (spriteShape s.cfg s.blk n) := by
  unfold spriteHits
  refine List.flatMap_congr fun p hp => List.flatMap_congr fun r hr => List.filterMap_congr fun k hk => ?_
  have hk : k < (spriteShape s.cfg s.blk n).width := List.mem_range.mp hk
  have hbyte : k / 8 < (spriteShape s.cfg s.blk n).rowBytes := by
    obtain ⟨hw, hrb⟩ | ⟨hw, hrb⟩ := spriteShape_row s.cfg s.blk n <;> omega
  have hread : spriteByte s.cfg m (spriteShape s.cfg s.blk n) s.cpu.i p r (k / 8) =
      spriteByte s.cfg s.mem (spriteShape s.cfg s.blk n) s.cpu.i p r (k / 8) :=
    hm p r (k / 8) ⟨mem_selectedPlanes.mp hp, List.mem_range.mp hr, hbyte⟩
  rw [spriteBit_spriteShape _ _ _ _ _ _ _ hk, spriteBit_spriteShape _ _ _ _ _ _ _ hk, hread]

/-- A command's answer depends on memory through its result alone. -/
theorem retire_setMem {w : Word} {r : Result} {s t : State} (h : retire w r s = .next t) (m : Memory) :
    retire w r (s.setMem m) = .next (t.setMem m) := by
  obtain ⟨hs, rfl⟩ | ⟨hs, rfl⟩ | ⟨hs, rfl⟩ | ⟨k, hs, rfl⟩ := retire_cases h
  · rw [retire_done _ hs]
    cases r.write <;> rfl
  · exact retire_stall _ hs
  · have hskip : (s.setMem m).cfg.debugSkip = s.cfg.debugSkip := rfl
    rw [retire_invalid _ hs, raiseInvalid, raiseInvalid, hskip]
    split <;> rfl
  · exact retire_trap _ hs

/-- Settles O25: only the pixels drawn depend on memory, and they are the same. -/
theorem blitReadsOnlySelectedSprites : Obligations.BlitReadsOnlySelectedSprites := by
  intro x y n s m hm
  have hdraw : drawSprite s.cfg s.blk m (s.getV x) (s.getV y) s.cpu.i n =
      drawSprite s.cfg s.blk s.mem (s.getV x) (s.getV y) s.cpu.i n :=
    congrArg (blitPixels s.blk.fb) (spriteHits_congr hm _ _)
  have hres : drwResult s.cfg s.blk m (s.getV x) (s.getV y) s.cpu.i n =
      drwResult s.cfg s.blk s.mem (s.getV x) (s.getV y) s.cpu.i n := by
    unfold drwResult blitResult
    rw [hdraw]
  obtain ⟨t, ht⟩ := everyInstructionAnswersNext (.drw x y n) s
  refine ⟨t, ht, ?_⟩
  rw [exec_drw] at ht ⊢
  exact (congrArg (retire _ · (s.setMem m)) hres).trans (retire_setMem ht m)

end Sys2Proof.Machine

/-! # The pixels of a blit

What a completing DXYN does to the framebuffer and to VF (R148, R153 to R155), twice in a row (95 vector L1-2), and
after its wait (R150). -/

namespace Sys2Proof.Machine

theorem spriteShape_rows_le_height (c : Config) (b : Block) (n : Nibble) :
    (spriteShape c b n).rows ≤ c.arch.height b.hires :=
  (spriteShape_small c b n).2.trans ((by decide : 16 ≤ 32).trans (height_ge _ _))

theorem spriteShape_width_le_width (c : Config) (b : Block) (n : Nibble) :
    (spriteShape c b n).width ≤ c.arch.width b.hires :=
  (spriteShape_small c b n).1.trans ((by decide : 16 ≤ 64).trans (width_ge _ _))

/-- Settles O23: a sprite is no larger than the plane. -/
theorem noPixelHitTwice : Obligations.NoPixelHitTwice := by
  intro c b n y0 x0 r r' k k' q hr hr' hk hk' h h'
  have hrows := spriteShape_rows_le_height c b n
  have hcols := spriteShape_width_le_width c b n
  exact target_inj (hr.trans_le hrows) (hr'.trans_le hrows) (hk.trans_le hcols) (hk'.trans_le hcols) h h'

/-! ### The framebuffer and VF after a completing blit -/

/-- In some selected plane the sprite lands on this pixel. -/
abbrev Hits (s : State) (x y : RegIx) (n : Nibble) (p row col : Nat) : Prop :=
  selected s.cfg s.blk p = true ∧ LandsOn s x y n p row col

theorem getD_blitPixels_other {hits : List (Nat × Nat × Nat)} {p : Nat} (hp : ∀ q ∈ hits, q.1 ≠ p) (fb : List Plane) :
    (blitPixels fb hits).1.getD p [] = fb.getD p [] := by
  induction hits generalizing fb with
  | nil => rfl
  | cons q hits ih =>
    obtain ⟨hq, hrest⟩ := List.forall_mem_cons.mp hp
    rw [blitPixels_cons]
    exact (ih hrest _).trans (getD_invertPixel_other hq)

section
variable {x y : RegIx} {n : Nibble} {s t : State} (h : BlitDone x y n s t)
include h

theorem BlitDone.fb : t.blk.fb = (s.drawn x y n).1 := by rw [h.blk]

theorem BlitDone.cfg : t.cfg = s.cfg := by
  obtain ⟨⟨hcfg, -⟩, -⟩ := h.completed
  exact hcfg

theorem BlitDone.i : t.cpu.i = s.cpu.i := by
  obtain ⟨-, hi, -⟩ := h.completed
  exact hi

/-- A plane that is not selected is not drawn in (R153). -/
theorem BlitDone.getD_of_not_selected {p : Nat} (hp : selected s.cfg s.blk p = false) :
    t.blk.fb.getD p [] = s.blk.fb.getD p [] := by
  rw [h.fb]
  refine getD_blitPixels_other (fun q hq heq => ?_) _
  obtain ⟨hsel, -⟩ := mem_spriteHits.mp hq
  simp [heq, hp] at hsel

variable (hwf : s.FbWf)
include hwf

/-- A pixel changes exactly where the sprite lands (R153). -/
theorem BlitDone.pixelAt_eq_not_iff {p row col : Nat} :
    pixelAt t.blk.fb p row col = (!pixelAt s.blk.fb p row col) ↔ Hits s x y n p row col := by
  rw [h.fb]
  exact (drawSprite_spec hwf.1 hwf.2 s.mem (s.getV x) (s.getV y) s.cpu.i n).1 p row col

theorem BlitDone.pixelAt_of_not_hits {p row col : Nat} (hhit : ¬Hits s x y n p row col) :
    pixelAt t.blk.fb p row col = pixelAt s.blk.fb p row col :=
  Bool.ne_not.mp fun heq => hhit ((h.pixelAt_eq_not_iff hwf).mp heq)

/-- VF is 1 exactly when a pixel that is hit was lit (R154). -/
theorem BlitDone.vf_eq_one_iff :
    t.getV 15 = 1#8 ↔ ∃ p row col, Hits s x y n p row col ∧ pixelAt s.blk.fb p row col = true := by
  rw [h.vf, collisionByte_eq_one]
  exact (drawSprite_spec hwf.1 hwf.2 s.mem (s.getV x) (s.getV y) s.cpu.i n).2.1

/-- The geometry stays, and so does the size of every plane. -/
theorem BlitDone.fbWf : t.FbWf := by
  obtain ⟨-, -, hlen, hsize⟩ := drawSprite_spec hwf.1 hwf.2 s.mem (s.getV x) (s.getV y) s.cpu.i n
  rw [State.FbWf, State.width, State.height, h.cfg, h.blk]
  exact ⟨hlen.trans hwf.1, hsize⟩

end

/-- Settles O21: drawing inverts the pixels hit; planes not selected make no difference to any instruction (O56). -/
theorem blitInvertsLandedPixels : Obligations.BlitInvertsLandedPixels := by
  intro x y n s hwf hready hrange
  obtain ⟨t, ht, hdone⟩ := exec_drw_done x y n hready hrange
  refine ⟨t, ht, fun p row col => (hdone.pixelAt_eq_not_iff hwf).mpr,
    fun p row col => hdone.pixelAt_of_not_hits hwf, fun p => hdone.getD_of_not_selected, fun fb hlen hget => ?_⟩
  obtain ⟨g, hu, hg⟩ := exec_withFb ⟨hlen, hget⟩ ht
  exact ⟨t.withFb g, hu, rfl, hg.getD⟩

/-- Settles O22: the collision bit is whether a pixel hit was lit. -/
theorem blitReportsCollision : Obligations.BlitReportsCollision := by
  intro x y n s hwf hready hrange
  obtain ⟨t, ht, hdone⟩ := exec_drw_done x y n hready hrange
  refine ⟨t, ht, ?_, fun hne => ?_⟩
  · simpa only [Hits, and_assoc] using hdone.vf_eq_one_iff hwf
  · rw [hdone.vf] at hne ⊢
    exact (collisionByte_eq_zero_or_one _).resolve_right hne

/-! ### One blit in two states -/

/-- What `drw x y n` draws, the framebuffer aside, is the same in `s` and `t`: the states may differ in the pixels, the
timers and WAIT of the block, and in registers that are no operand. -/
structure SameSprite (x y : RegIx) (s t : State) : Prop where
  cfg : t.cfg = s.cfg
  mem : t.mem = s.mem
  i : t.cpu.i = s.cpu.i
  vx : t.getV x = s.getV x
  vy : t.getV y = s.getV y
  blk : t.blk = { s.blk with fb := t.blk.fb, dt := t.blk.dt, st := t.blk.st, vt := t.blk.vt, wait := t.blk.wait }

section
variable {x y : RegIx} {n : Nibble} {s t : State}

theorem SameSprite.blitInRange (h : SameSprite x y s t) (hrange : BlitInRange s n) : BlitInRange t n := by
  rw [← strictFailure_eq_none_iff, h.cfg, h.i, h.blk]
  exact strictFailure_eq_none_iff.mpr hrange

theorem SameSprite.hits_iff (h : SameSprite x y s t) {p row col : Nat} :
    Hits t x y n p row col ↔ Hits s x y n p row col := by
  rw [Hits, LandsOn, State.width, State.height, h.cfg, h.mem, h.i, h.vx, h.vy, h.blk]
  exact Iff.rfl

theorem SameSprite.drawn (h : SameSprite x y s t) (hfb : t.blk.fb = s.blk.fb) : t.drawn x y n = s.drawn x y n := by
  rw [State.drawn, h.cfg, h.mem, h.i, h.vx, h.vy, h.blk, hfb]
  rfl

theorem BlitDone.sameSprite (h : BlitDone x y n s t) (hx : x ≠ 15) (hy : y ≠ 15) : SameSprite x y s t where
  cfg := h.cfg
  mem := h.mem
  i := h.i
  vx := h.vKept x hx
  vy := h.vKept y hy
  blk := by rw [h.blk]

/-- The pixels hit are inverted twice, the others stay. -/
theorem BlitDone.fb_of_twice {u : State} (h : BlitDone x y n s t) (h' : BlitDone x y n t u) (hwf : s.FbWf)
    (hsame : SameSprite x y s t) : u.blk.fb = s.blk.fb := by
  have hwft := h.fbWf hwf
  have hwfu := h'.fbWf hwft
  have hw : u.width = s.width := by rw [State.width, State.width, h'.cfg, h.cfg, h'.blk, h.blk]
  have hh : u.height = s.height := by rw [State.height, State.height, h'.cfg, h.cfg, h'.blk, h.blk]
  refine fb_ext (w := s.width) (h := s.height) ?_ (hw ▸ hh ▸ hwfu.2) hwf.2 fun p row col => ?_
  · rw [hwfu.1, hwf.1, h'.cfg, h.cfg]
  · by_cases hhit : Hits s x y n p row col
    · rw [(h'.pixelAt_eq_not_iff hwft).mpr (hsame.hits_iff.mpr hhit), (h.pixelAt_eq_not_iff hwf).mpr hhit, Bool.not_not]
    · rw [h'.pixelAt_of_not_hits hwft (mt hsame.hits_iff.mp hhit), h.pixelAt_of_not_hits hwf hhit]

end

/-- Settles O29: the second blit draws the same sprite, so it inverts the same pixels back. -/
theorem blitTwiceRestores : Obligations.BlitTwiceRestores := by
  intro x y n s hwf hdelay hrange hx hy
  obtain ⟨t, ht, hdone⟩ := exec_drw_done x y n (.inl hdelay) hrange
  have hsame := hdone.sameSprite hx hy
  obtain ⟨u, hu, hdone'⟩ := exec_drw_done x y n (.inl (hdone.cfg ▸ hdelay)) (hsame.blitInRange hrange)
  refine ⟨t, u, ht, hu, ?_, ?_⟩
  · have hfb := hdone.fb_of_twice hdone' hwf hsame
    rw [hdone'.fb] at hfb
    rw [hdone'.blk, hfb, hdone.blk, hdone.cfg, hdelay]
    rfl
  · simpa only [hsame.hits_iff, Hits, and_assoc] using hdone'.vf_eq_one_iff (hdone.fbWf hwf)

/-! ### A delayed blit (R150, R279) -/

theorem run_succ_of_step {s t : State} (h : step s = .next t) (k : Nat) : core.run (k + 1) s = core.run k t := by
  have h' : core.step s = .next t := h
  simp only [Host.Core.run, h']

theorem step_of_tick {s : State} (hl : s.life = .running) (ht : s.takeTurn.1 = .tick) :
    step s = .next s.takeTurn.2.tick := by
  rw [step, hl]
  exact congrArg (State.perform s.takeTurn.2) ht

/-- The arming step of a delayed blit (R150). -/
theorem step_arm {x y : RegIx} {n : Nibble} {s : State} {ts : List Turn} (hl : s.life = .running)
    (hdelay : s.cfg.spriteDelay = true) (hwait : s.blk.wait = false) (hin : s.cpu.pc + 1 < s.cfg.arch.memSize)
    (hi : decodeWord (s.readWord s.cpu.pc) = some (.drw x y n)) (hsch : s.schedule = goodCycle :: ts) :
    ∃ t, step s = .next t ∧ t.blk = { s.blk with wait := true, vt := 1#8 } ∧ t.cpu = s.cpu ∧ t.cfg = s.cfg ∧
      t.mem = s.mem ∧ t.life = .running ∧ t.schedule = ts := by
  have hturn := takeTurn_cons hsch
  rw [step_of_cycle hl (by rw [hturn]) hin hi, hturn]
  obtain ⟨t, ht, hblk, hcpu, ⟨hcfg, -, hlife, hsch', -⟩, -⟩ :=
    (delayedBlitStalls x y n ((s.setSchedule ts).setPorts true true) hdelay).1 hwait
  exact ⟨t, ht, hblk, hcpu, hcfg, (exec_answer ht).mem, hlife.trans hl, hsch'⟩

/-- A TICK whose `present` succeeds touches nothing but the timers (R186). -/
theorem step_goodTick {s : State} {ts : List Turn} (hl : s.life = .running) (hsch : s.schedule = goodTick :: ts) :
    ∃ t, step s = .next t ∧ t.blk = tickBlock s.blk ∧ t.cpu = s.cpu ∧ t.cfg = s.cfg ∧ t.mem = s.mem ∧
      t.life = .running ∧ t.schedule = ts := by
  have hturn := takeTurn_cons hsch
  rw [step_of_tick hl (by rw [hturn]), hturn]
  exact ⟨_, rfl, by simp, by simp, by simp, by simp, by simpa [tick_life] using hl, by simp⟩

/-- The completing step of a blit. -/
theorem step_drw_done {x y : RegIx} {n : Nibble} {s : State} {ts : List Turn} (hl : s.life = .running)
    (hready : BlitReady s) (hrange : BlitInRange s n) (hin : s.cpu.pc + 1 < s.cfg.arch.memSize)
    (hi : decodeWord (s.readWord s.cpu.pc) = some (.drw x y n)) (hsch : s.schedule = goodCycle :: ts) :
    ∃ t, step s = .next t ∧ BlitDone x y n ((s.setSchedule ts).setPorts true true) t := by
  have hturn := takeTurn_cons hsch
  rw [step_of_cycle hl (by rw [hturn]) hin hi, hturn]
  exact exec_drw_done x y n hready hrange

/-- Settles O28: arming and the TICK leave all that the blit draws with, and VT counts from 1 down to 0. -/
theorem delayedBlitCompletesAfterTick : Obligations.DelayedBlitCompletesAfterTick := by
  intro x y n s rest hl hdelay hwait hrange hin hi hsch
  obtain ⟨a, ha, hablk, hacpu, hacfg, hamem, hal, hasch⟩ := step_arm hl hdelay hwait hin hi hsch
  obtain ⟨b, hb, hbblk, hbcpu, hbcfg, hbmem, hbl, hbsch⟩ := step_goodTick hal hasch
  have hcpu := hbcpu.trans hacpu
  have hcfg := hbcfg.trans hacfg
  have hmem := hbmem.trans hamem
  have hblk : b.blk = tickBlock { s.blk with wait := true, vt := 1#8 } := hbblk.trans (congrArg tickBlock hablk)
  have hgetV (r : RegIx) : b.getV r = s.getV r := by rw [State.getV, hcpu]; rfl
  have hsame : SameSprite x y s b :=
    { cfg := hcfg, mem := hmem, i := by rw [hcpu], vx := hgetV x, vy := hgetV y, blk := by rw [hblk]; rfl }
  have hvt : b.blk.vt = 0#8 := by
    rw [hblk]
    show countDown 1#8 = 0#8
    decide
  have hready : BlitReady b := .inr ⟨by rw [hblk]; rfl, hvt⟩
  obtain ⟨t, ht, hdone⟩ := step_drw_done (x := x) (y := y) hbl hready (hsame.blitInRange hrange)
    (by rw [hcpu, hcfg]; exact hin) (by rw [State.readWord, hcpu, hmem]; exact hi) hbsch
  obtain ⟨⟨-, -, -, hsch', -⟩, -, hpc, -⟩ := hdone.completed
  have hdrawn : b.drawn x y n = s.drawn x y n := hsame.drawn (by rw [hblk]; rfl)
  refine ⟨t, ?_, ?_, ?_, ?_, ?_, fun r hr => (hdone.vKept r hr).trans (hgetV r), hsch'⟩
  · rw [run_succ_of_step ha, run_succ_of_step hb, run_succ_of_step ht]; rfl
  · rw [hdone.blk]; exact if_pos (hcfg ▸ hdelay)
  · rw [hdone.blk]; exact hvt
  · exact hpc.trans (congrArg (·.pc + 2) hcpu)
  · rw [hdone.fb, hdone.vf]
    show ((b.drawn x y n).1, collisionByte (b.drawn x y n).2) = _
    rw [hdrawn]; rfl

end Sys2Proof.Machine

/-! # The byte-level blit

The packed rows that R156 XORs are the pixels that R153 inverts: bit `7 - j` of byte `k` of a row is its column
`8 * k + j` (R69). -/

namespace Sys2Proof.Machine

/-! ### Bytes as eight pixels -/

section
variable {v v' : Byte}

/-- Bytes are equal when their pixels are, counted from the left. -/
theorem byte_ext (h : ∀ j < 8, v.getLsbD (7 - j) = v'.getLsbD (7 - j)) : v = v' := by
  refine BitVec.eq_of_getLsbD_eq fun i hi => ?_
  have := h (7 - i) (by omega)
  rwa [show 7 - (7 - i) = i by omega] at this

theorem byte_ne_zero_iff : v ≠ 0#8 ↔ ∃ j < 8, v.getLsbD (7 - j) = true := by
  constructor
  · intro hne
    by_contra hall
    push Not at hall
    exact hne (byte_ext fun j hj => by simpa using hall j hj)
  · rintro ⟨j, -, hj⟩ rfl
    simp at hj

end

/-! ### Targets, one coordinate at a time (R147) -/

/-- Where coordinate `a` of a sprite pixel falls on an axis of `len` pixels. -/
def axisTarget (wrap : Bool) (len a : Nat) : Option Nat :=
  if wrap then some (a % len) else if a < len then some a else none

theorem target_eq_some_iff {wrap : Bool} {w h ty tx row col : Nat} : target wrap w h ty tx = some (row, col) ↔
    axisTarget wrap h ty = some row ∧ axisTarget wrap w tx = some col := by
  cases wrap with
  | true => simp [target, axisTarget]
  | false =>
    simp only [target, axisTarget, Bool.false_eq_true, if_false, Option.ite_none_left_eq_some,
      Option.ite_none_right_eq_some, Option.some.injEq, Prod.mk.injEq]
    omega

theorem axisTarget_lt {wrap : Bool} {len a b : Nat} (hlen : 0 < len) (h : axisTarget wrap len a = some b) : b < len := by
  unfold axisTarget at h
  split at h
  · exact Option.some.inj h ▸ Nat.mod_lt _ hlen
  · split at h
    · exact Option.some.inj h ▸ ‹a < len›
    · cases h

theorem axisTarget_inj {wrap : Bool} {len a d d' b : Nat} (hd : d < len) (hd' : d' < len)
    (h : axisTarget wrap len (a + d) = some b) (h' : axisTarget wrap len (a + d') = some b) : d = d' := by
  cases wrap with
  | true => exact add_mod_inj hd hd' (Option.some.inj (h.trans h'.symm))
  | false =>
    simp only [axisTarget, Bool.false_eq_true, if_false, Option.ite_none_right_eq_some, Option.some.injEq] at h h'
    omega

/-- On an axis of whole bytes, wrapping and clipping keep a pixel's place in its byte and act on the byte's index. -/
theorem axisTarget_byte {wrap : Bool} {len q j k j' : Nat} (hj : j < 8) (hj' : j' < 8) (hk : k < len) :
    axisTarget wrap (8 * len) (8 * q + j) = some (8 * k + j') ↔
      (if wrap then q % len else q) = k ∧ j = j' := by
  cases wrap with
  | true =>
    have hmod : (8 * q + j) % (8 * len) = 8 * (q % len) + j := by
      rw [Nat.mod_mul, Nat.mul_add_mod, Nat.mod_eq_of_lt hj, Nat.mul_add_div (by decide), Nat.div_eq_of_lt hj,
        Nat.add_zero, Nat.add_comm]
    simp only [axisTarget, if_true, hmod, Option.some.injEq]
    omega
  | false =>
    simp only [axisTarget, Bool.false_eq_true, if_false, Option.ite_none_right_eq_some, Option.some.injEq]
    omega

/-! ### The shifted sprite (R156) -/

section
variable {v : Byte} {a j : Nat}

theorem shiftRight_getLsbD (hj : j < 8) :
    (v >>> a).getLsbD (7 - j) = true ↔ ∃ c < 8, v.getLsbD (7 - c) = true ∧ a + c = j := by
  rw [BitVec.getLsbD_ushiftRight]
  constructor
  · intro hbit
    have hlt : a + (7 - j) < 8 := BitVec.lt_of_getLsbD hbit
    exact ⟨j - a, by omega, by rwa [show 7 - (j - a) = a + (7 - j) by omega], by omega⟩
  · rintro ⟨c, hc, hbit, rfl⟩
    rwa [show a + (7 - (a + c)) = 7 - c by omega]

theorem shiftLeft_getLsbD (ha : a < 8) (hj : j < 8) :
    (v <<< (8 - a)).getLsbD (7 - j) = true ↔ ∃ c < 8, v.getLsbD (7 - c) = true ∧ a + c = 8 + j := by
  simp only [BitVec.getLsbD_shiftLeft, Bool.and_eq_true, decide_eq_true_eq, Bool.not_eq_true', decide_eq_false_iff_not]
  constructor
  · rintro ⟨⟨-, hge⟩, hbit⟩
    exact ⟨8 + j - a, by omega, by rwa [show 7 - (8 + j - a) = 7 - j - (8 - a) by omega], by omega⟩
  · rintro ⟨c, hc, hbit, hcol⟩
    exact ⟨⟨by omega, by omega⟩, by rwa [show 7 - j - (8 - a) = 7 - c by omega]⟩

end

/-- A shifted sprite byte: its pixel `c`, at column `x0 + c`, shows at pixel `j` of byte `k` when that is its target. -/
theorem shiftedByte_getLsbD {wrap : Bool} {len x0 k j : Nat} (v : Byte) (hk : k < len) (hj : j < 8) :
    (shiftedByte wrap len x0 v k).getLsbD (7 - j) = true ↔
      ∃ c < 8, v.getLsbD (7 - c) = true ∧ axisTarget wrap (8 * len) (x0 + c) = some (8 * k + j) := by
  have ha : x0 % 8 < 8 := Nat.mod_lt _ (by decide)
  have hleft {c : Nat} (hc : x0 % 8 + c < 8) : axisTarget wrap (8 * len) (x0 + c) = some (8 * k + j) ↔
      (if wrap then x0 / 8 % len else x0 / 8) = k ∧ x0 % 8 + c = j := by
    rw [← axisTarget_byte hc hj hk, show 8 * (x0 / 8) + (x0 % 8 + c) = x0 + c by omega]
  have hright {c : Nat} (hc : c < 8) (hge : 8 ≤ x0 % 8 + c) : axisTarget wrap (8 * len) (x0 + c) = some (8 * k + j) ↔
      (if wrap then (x0 / 8 + 1) % len else x0 / 8 + 1) = k ∧ x0 % 8 + c - 8 = j := by
    rw [← axisTarget_byte (by omega) hj hk, show 8 * (x0 / 8 + 1) + (x0 % 8 + c - 8) = x0 + c by omega]
  have hbyte (P : Prop) [Decidable P] (u : Byte) :
      (if P then u else 0#8).getLsbD (7 - j) = true ↔ P ∧ u.getLsbD (7 - j) = true := by
    by_cases hP : P <;> simp [hP]
  rw [shiftedByte, BitVec.getLsbD_or, Bool.or_eq_true, hbyte, hbyte, shiftRight_getLsbD hj, shiftLeft_getLsbD ha hj]
  constructor
  · rintro (⟨hq, c, hc, hbit, hcol⟩ | ⟨hq, c, hc, hbit, hcol⟩)
    · exact ⟨c, hc, hbit, (hleft (by omega)).mpr ⟨hq, hcol⟩⟩
    · exact ⟨c, hc, hbit, (hright hc (by omega)).mpr ⟨hq, by omega⟩⟩
  · rintro ⟨c, hc, hbit, htarget⟩
    by_cases hlt : x0 % 8 + c < 8
    · obtain ⟨hq, hcol⟩ := (hleft hlt).mp htarget
      exact .inl ⟨hq, c, hc, hbit, hcol⟩
    · obtain ⟨hq, hcol⟩ := (hright hc (by omega)).mp htarget
      exact .inr ⟨hq, c, hc, hbit, by omega⟩

section
variable {s : State} {x : RegIx} {n : Nibble} {p r k j : Nat} (hk : k < s.width / 8) (hj : j < 8)
include hk hj

/-- A shifted sprite row shows the row's pixels at their targets, whether it is one byte or two. -/
theorem shiftedRow_getLsbD : (shiftedRow s x n p r k).getLsbD (7 - j) = true ↔
    ∃ c < (spriteShape s.cfg s.blk n).width,
      spriteBit s.cfg s.mem (spriteShape s.cfg s.blk n) s.cpu.i p r c = true ∧
      axisTarget s.cfg.screenWrap s.width ((s.getV x).toNat % s.width + c) = some (8 * k + j) := by
  have hwidth : 8 * (s.width / 8) = s.width := Nat.mul_div_cancel' (width_dvd s.cfg.arch s.blk.hires)
  have hbit {c : Nat} (hc : c < (spriteShape s.cfg s.blk n).width) :=
    spriteBit_spriteShape s.cfg s.blk s.mem s.cpu.i n p r hc
  obtain ⟨hw, hrb⟩ | ⟨hw, hrb⟩ := spriteShape_row s.cfg s.blk n
  · rw [shiftedRow, if_pos hrb, BitVec.or_zero, shiftedByte_getLsbD _ hk hj, hwidth, hw]
    refine exists_congr fun c => and_congr_right fun hc => ?_
    rw [hbit (by omega), Nat.div_eq_of_lt hc, Nat.mod_eq_of_lt hc]
  · rw [shiftedRow, if_neg (by omega), BitVec.getLsbD_or, Bool.or_eq_true, shiftedByte_getLsbD _ hk hj,
      shiftedByte_getLsbD _ hk hj, hwidth, hw]
    constructor
    · rintro (⟨c, hc, hv, htarget⟩ | ⟨c, hc, hv, htarget⟩)
      · exact ⟨c, by omega, by rwa [hbit (by omega), Nat.div_eq_of_lt hc, Nat.mod_eq_of_lt hc], htarget⟩
      · exact ⟨8 + c, by omega,
          by rwa [hbit (by omega), show (8 + c) / 8 = 1 by omega, show (8 + c) % 8 = c by omega],
          by rwa [← Nat.add_assoc]⟩
    · rintro ⟨c, hc, hv, htarget⟩
      rw [hbit (by omega)] at hv
      by_cases hleft : c < 8
      · rw [Nat.div_eq_of_lt hleft, Nat.mod_eq_of_lt hleft] at hv
        exact .inl ⟨c, hleft, hv, htarget⟩
      · rw [show c / 8 = 1 by omega, show c % 8 = c - 8 by omega] at hv
        exact .inr ⟨c - 8, by omega, hv, by rwa [Nat.add_assoc, show 8 + (c - 8) = c by omega]⟩

/-- In the framebuffer row that a sprite row reaches, the shifted row shows the pixels hit: no other sprite row reaches
it (R148). -/
theorem shiftedRow_getLsbD_iff_hits {y : RegIx} {row : Nat} (hsel : selected s.cfg s.blk p = true)
    (hr : r < (spriteShape s.cfg s.blk n).rows) (hrow : targetRow s y r = some row) :
    (shiftedRow s x n p r k).getLsbD (7 - j) = true ↔ Hits s x y n p row (8 * k + j) := by
  have hheight := spriteShape_rows_le_height s.cfg s.blk n
  rw [shiftedRow_getLsbD hk hj]
  constructor
  · rintro ⟨c, hc, hbit, hcol⟩
    exact ⟨hsel, r, c, hr, hc, hbit, target_eq_some_iff.mpr ⟨hrow, hcol⟩⟩
  · rintro ⟨-, r', c, hr', hc, hbit, htarget⟩
    obtain ⟨hrow', hcol⟩ := target_eq_some_iff.mp htarget
    obtain rfl : r = r' := axisTarget_inj (hr.trans_le hheight) (hr'.trans_le hheight) hrow hrow'
    exact ⟨c, hc, hbit, hcol⟩

theorem fbByte_getLsbD (row : Nat) : (fbByte s p row k).getLsbD (7 - j) = pixelAt s.blk.fb p row (8 * k + j) := by
  have hbyte : (8 * k + j) / 8 = k := by omega
  have h := packedByte_getLsbD (s.blk.fb.getD p []) row (x := 8 * k + j) (w := s.width) (by rwa [hbyte])
  rwa [hbyte, show (8 * k + j) % 8 = j by omega] at h

end

/-- A pixel hit lies in a byte of the row that its sprite row reaches. -/
theorem exists_byte_of_hits {s : State} {x y : RegIx} {n : Nibble} {p row col : Nat} (h : Hits s x y n p row col) :
    ∃ r, r < (spriteShape s.cfg s.blk n).rows ∧ targetRow s y r = some row ∧ col / 8 < s.width / 8 := by
  obtain ⟨-, r, c, hr, -, -, htarget⟩ := h
  obtain ⟨hrow, hcol⟩ := target_eq_some_iff.mp htarget
  have hlt := axisTarget_lt (Nat.lt_of_lt_of_le (by decide) (width_ge s.cfg.arch s.blk.hires)) hcol
  exact ⟨r, hr, hrow, Nat.div_lt_div_of_lt_of_dvd (width_dvd _ _) hlt⟩

section
variable {s t : State} {x y : RegIx} {n : Nibble} (h : BlitDone x y n s t) (hwf : s.FbWf)
include h hwf

theorem BlitDone.fbByte_eq {p r row k : Nat} (hsel : selected s.cfg s.blk p = true)
    (hr : r < (spriteShape s.cfg s.blk n).rows) (hrow : targetRow s y r = some row) (hk : k < s.width / 8) :
    fbByte t p row k = fbByte s p row k ^^^ shiftedRow s x n p r k := by
  have hw : t.width = s.width := by rw [State.width, State.width, h.cfg, h.blk]
  refine byte_ext fun j hj => ?_
  have hhits := shiftedRow_getLsbD_iff_hits (x := x) hk hj hsel hr hrow
  rw [BitVec.getLsbD_xor, fbByte_getLsbD hk hj, fbByte_getLsbD (hw ▸ hk) hj]
  cases hbit : (shiftedRow s x n p r k).getLsbD (7 - j) with
  | true => rw [(h.pixelAt_eq_not_iff hwf).mpr (hhits.mp hbit), Bool.xor_true]
  | false => rw [h.pixelAt_of_not_hits hwf fun hhit => by simp [hhits.mpr hhit] at hbit, Bool.xor_false]

theorem BlitDone.vf_eq_one_iff_byte : t.getV 15 = 1#8 ↔ ∃ p r row k, selected s.cfg s.blk p = true ∧
    r < (spriteShape s.cfg s.blk n).rows ∧ targetRow s y r = some row ∧ k < s.width / 8 ∧
    fbByte s p row k &&& shiftedRow s x n p r k ≠ 0#8 := by
  rw [h.vf_eq_one_iff hwf]
  constructor
  · rintro ⟨p, row, col, hhit, hlit⟩
    obtain ⟨r, hr, hrow, hk⟩ := exists_byte_of_hits hhit
    have hj : col % 8 < 8 := Nat.mod_lt _ (by decide)
    refine ⟨p, r, row, col / 8, hhit.1, hr, hrow, hk, byte_ne_zero_iff.mpr ⟨col % 8, hj, ?_⟩⟩
    rw [BitVec.getLsbD_and, Bool.and_eq_true, fbByte_getLsbD hk hj,
      shiftedRow_getLsbD_iff_hits hk hj hhit.1 hr hrow, Nat.div_add_mod]
    exact ⟨hlit, hhit⟩
  · rintro ⟨p, r, row, k, hsel, hr, hrow, hk, hne⟩
    obtain ⟨j, hj, hbit⟩ := byte_ne_zero_iff.mp hne
    rw [BitVec.getLsbD_and, Bool.and_eq_true, fbByte_getLsbD hk hj,
      shiftedRow_getLsbD_iff_hits hk hj hsel hr hrow] at hbit
    obtain ⟨hlit, hhit⟩ := hbit
    exact ⟨p, row, 8 * k + j, hhit, hlit⟩

end

/-- Settles O30: bit by bit, the shifted sprite row shows the pixels hit. -/
theorem byteLevelBlitIsEquivalent : Obligations.ByteLevelBlitIsEquivalent := by
  intro x y n s hwf hready hrange
  obtain ⟨t, ht, hdone⟩ := exec_drw_done x y n hready hrange
  exact ⟨t, ht, fun p r row k => hdone.fbByte_eq hwf, hdone.vf_eq_one_iff_byte hwf⟩

end Sys2Proof.Machine

/-! # Timers and the TICK

Fx07, Fx15 and Fx18 (R180 to R182), the gate's evaluation after every command step and every TICK (R189), and the
countdown (R186). -/

namespace Sys2Proof.Machine

/-! ### The timer commands -/

theorem decodeWord_eq_some_iff {w : Word} {i : Instr} : decodeWord w = some i ↔ w = encodeWord i :=
  ⟨fun h => (encodeWord_of_decodeWord h).symm, fun h => h ▸ decodeWord_encodeWord i⟩

theorem toneGate_eq_true {b : Block} : b.toneGate = true ↔ b.st ≠ 0#8 := bne_iff_ne

/-- Settles O31: Fx07 completes with DT as the register write it requests. -/
theorem readDelayTimer : Obligations.ReadDelayTimer := fun _ s =>
  ⟨fun _ => decodeWord_eq_some_iff, _, exec_done s rfl rfl rfl, afterDone_completed s _, setV_getV_same _ _ _,
    fun _ hr => setV_getV_other _ _ hr, afterDone_blk s _⟩

/-- Settles O32: Fx15 completes with a block in which DT alone is new. -/
theorem writeDelayTimer : Obligations.WriteDelayTimer := fun _ s =>
  ⟨fun _ => decodeWord_eq_some_iff, _, exec_done s rfl rfl rfl, afterDone_completed s _, afterDone_vKept s rfl,
    afterDone_blk s _⟩

/-- Settles O33: Fx18 completes with a block in which ST alone is new, and the gate sent is that block's. -/
theorem writeSoundTimer : Obligations.WriteSoundTimer := fun x s =>
  ⟨fun _ => decodeWord_eq_some_iff, _, exec_done s rfl rfl rfl, afterDone_completed s _, afterDone_vKept s rfl,
    afterDone_blk s _, toneGate_eq_true (b := { s.blk with st := s.getV x })⟩

/-! ### The gate after a step (R189) -/

/-- In the step from `s` to `t` the gate was evaluated: the value sent is the tone gate of `t`, and it was called exactly
when it differs from the value sent before. -/
def GateEvaluated (s t : State) : Prop :=
  t.gateSent = t.blk.toneGate ∧ ∀ on, Output.gate on ∈ t.out ↔ on = t.blk.toneGate ∧ on ≠ s.gateSent

theorem gateEvaluated_evalGate {s u : State} (hsent : u.gateSent = s.gateSent) (hout : ∀ on, Output.gate on ∉ u.out) :
    GateEvaluated s u.evalGate := by
  refine ⟨rfl, fun on => ?_⟩
  rw [evalGate_out, List.mem_append, or_iff_right (hout on), gate_mem_gateCalls, evalGate_blk, hsent]
  constructor
  · rintro ⟨hne, rfl⟩
    exact ⟨rfl, hne⟩
  · rintro ⟨rfl, hne⟩
    exact ⟨hne, rfl⟩

theorem gateEvaluated_raiseInvalid (w : Word) (s : State) : GateEvaluated s (raiseInvalid w s) := by
  unfold raiseInvalid
  split <;> exact gateEvaluated_evalGate rfl (by simp)

theorem gateEvaluated_tick (s : State) : GateEvaluated s s.tick := by
  have h : GateEvaluated s ((s.setBlk (tickBlock s.blk)).setOut [s.presentCall]).evalGate :=
    gateEvaluated_evalGate rfl (by simp [State.presentCall])
  unfold State.tick
  split <;> exact h

theorem gate_not_mem_commandResult_calls (i : Instr) (s : State) (on : Bool) :
    Output.gate on ∉ (commandResult i s).calls := fun h => by
  obtain ⟨-, _, _, _, ho⟩ := commandResult_calls h
  cases ho

/-- Settles O38: each answer of a block command ends in the gate's evaluation, before which it makes no gate call. -/
theorem gateFollowsSoundTimer : Obligations.GateFollowsSoundTimer := by
  intro i s t hi h
  cases exec_answer h with
  | context hi' => simp [hi] at hi'
  | invalid => exact gateEvaluated_raiseInvalid _ s
  | done => exact gateEvaluated_evalGate (by simp) (gate_not_mem_commandResult_calls i s)
  | stall | trap => exact gateEvaluated_evalGate rfl (gate_not_mem_commandResult_calls i s)

/-! ### The TICK (R186, R187) -/

theorem step_tick {s : State} {d a : Bool} {rest : List Turn} (hl : s.life = .running)
    (hsch : s.schedule = { event := .tick, displayOk := d, audioOk := a } :: rest) :
    step s = .next ((s.setSchedule rest).setPorts d a).tick := by
  have hturn := takeTurn_cons hsch
  rw [step_of_tick hl (by rw [hturn]), hturn]

/-- Settles O34: the block that a TICK leaves, timer by timer. -/
theorem tickDecrementsTimers : Obligations.TickDecrementsTimers := by
  intro s d a rest hl hsch
  refine ⟨_, step_tick hl hsch, ?_, ?_, ?_, ?_, ?_, ?_, fun b => ?_, ?_⟩
  iterate 3 rw [tick_blk]; exact countDown_toNat _
  · rw [tick_blk]; rfl
  all_goals simp

theorem toneGate_eq_decide (b : Block) : b.toneGate = decide (0 < b.st.toNat) := by
  rw [Bool.eq_iff_iff, toneGate_eq_true, decide_eq_true_iff, Nat.pos_iff_ne_zero, ne_eq, ne_eq, BitVec.toNat_eq]
  rfl

theorem tickBlock_toneGate (b : Block) : (tickBlock b).toneGate = decide (1 < b.st.toNat) := by
  rw [toneGate_eq_decide]
  show decide (0 < (countDown b.st).toNat) = _
  rw [countDown_toNat, decide_eq_decide]
  exact Nat.sub_pos_iff_lt

/-- Settles O35: the outputs of a TICK are its `present`, then the gate's; the gate follows ST counted down. -/
theorem tickPresentsThenGates : Obligations.TickPresentsThenGates := by
  intro s d a rest hl hsch
  obtain ⟨hsent, hgate⟩ := gateEvaluated_tick ((s.setSchedule rest).setPorts d a)
  rw [tick_blk, tickBlock_toneGate] at hsent hgate
  refine ⟨_, step_tick hl hsch, ?_, fun bms r hmem => ?_, hsent, fun on => ?_, fun hd => ?_, fun hd => ?_⟩
  · rw [tick_out]; rfl
  · rw [tick_out] at hmem
    obtain ⟨_, ho⟩ | ho := mem_gateCalls _ hmem <;> cases ho
  · exact (hgate on).trans (and_congr_right fun _ => ne_comm)
  · simp [tick_life, hd, hl]
  · simp [tick_life, hd]

/-! ### TICKs in a row (R186, R190) -/

theorem countDown_iterate_toNat (k : Nat) (b : Byte) : (countDown^[k] b).toNat = b.toNat - k := by
  induction k with
  | zero => rfl
  | succ k ih => rw [Function.iterate_succ_apply', countDown_toNat, ih, Nat.sub_sub]

theorem tickBlock_iterate (k : Nat) (b : Block) : tickBlock^[k] b =
    { b with dt := countDown^[k] b.dt, st := countDown^[k] b.st, vt := countDown^[k] b.vt } := by
  induction k with
  | zero => rfl
  | succ k ih => simp only [Function.iterate_succ_apply', ih, tickBlock]

theorem step_goodTick_gateSent {s t : State} {ts : List Turn} (hl : s.life = .running)
    (hsch : s.schedule = goodTick :: ts) (h : step s = .next t) : t.gateSent = t.blk.toneGate := by
  obtain rfl := Host.Outcome.next.inj ((step_tick hl hsch).symm.trans h)
  exact (gateEvaluated_tick _).1

/-- What `k` good TICKs leave. The gate value sent is the tone gate if a TICK was made, or if it was so before. -/
theorem run_goodTicks (k : Nat) {s : State} {rest : List Turn} (hl : s.life = .running)
    (hsch : s.schedule = List.replicate k goodTick ++ rest) :
    ∃ t, core.run k s = .next t ∧ t.blk = tickBlock^[k] s.blk ∧ t.cpu = s.cpu ∧ t.mem = s.mem ∧ t.schedule = rest ∧
      t.life = .running ∧ (s.gateSent = s.blk.toneGate ∨ 0 < k → t.gateSent = t.blk.toneGate) := by
  induction k generalizing s with
  | zero => exact ⟨s, rfl, rfl, rfl, rfl, hsch, hl, fun h => h.resolve_right (Nat.lt_irrefl 0)⟩
  | succ k ih =>
    obtain ⟨u, hu, hublk, hucpu, -, humem, hul, husch⟩ := step_goodTick hl hsch
    obtain ⟨t, ht, hblk, hcpu, hmem, hrest, hlife, hgate⟩ := ih hul husch
    exact ⟨t, (run_succ_of_step hu k).trans ht, by rw [hblk, hublk, Function.iterate_succ_apply], hcpu.trans hucpu,
      hmem.trans humem, hrest, hlife, fun _ => hgate (.inl (step_goodTick_gateSent hl hsch hu))⟩

/-- Settles O36: the block is the `k`-th iterate of a TICK's, and its tone gate is the gate value sent. -/
theorem ticksCountDown : Obligations.TicksCountDown := by
  intro k s rest hl hsch
  obtain ⟨t, ht, hblk, hcpu, hmem, hrest, hlife, hgate⟩ := run_goodTicks k hl hsch
  rw [tickBlock_iterate] at hblk
  have hst : t.blk.st.toNat = s.blk.st.toNat - k := by rw [hblk]; exact countDown_iterate_toNat k _
  refine ⟨t, ht, ?_, hst, ?_, ?_, hcpu, hmem, hrest, hlife, fun hk => ?_⟩
  · rw [hblk]; exact countDown_iterate_toNat k _
  · rw [hblk]; exact countDown_iterate_toNat k _
  · rw [hblk]
  · rw [hgate (.inr hk), toneGate_eq_decide, hst, decide_eq_decide]
    exact Nat.sub_pos_iff_lt

end Sys2Proof.Machine

/-! # The timers that commands do not read

ST is seen by the tone gate alone, VT by DXYN under SPRITE_DELAY alone (R183). Two states that agree but for ST and VT
still do after an instruction. -/

namespace Sys2Proof.Machine

/-! ### Agreement but for ST and VT -/

/-- `b'` is `b` but for ST and VT, each of which is the given byte or the same as in `b`. -/
structure Block.UpToTimers (st vt : Byte) (b b' : Block) : Prop where
  eq : b' = { b with st := b'.st, vt := b'.vt }
  st : b'.st = st ∨ b'.st = b.st
  vt : b'.vt = vt ∨ b'.vt = b.vt

/-- The block with other values of ST and VT. -/
def Block.withTimers (b : Block) (st vt : Byte) : Block := { b with st := st, vt := vt }

theorem Block.upToTimers_withTimers (b : Block) (st vt : Byte) : b.UpToTimers st vt (b.withTimers st vt) :=
  ⟨rfl, .inl rfl, .inl rfl⟩

/-- `r'` is `r` but for ST and VT. -/
structure Result.UpToTimers (st vt : Byte) (r r' : Result) : Prop where
  blk : r.blk.UpToTimers st vt r'.blk
  status : r'.status = r.status
  write : r'.write = r.write
  calls : r'.calls = r.calls

/-- `t'` is `t` but for ST and VT, the gate value sent, and the outputs of the gate's evaluation. -/
structure State.UpToTimers (st vt : Byte) (t t' : State) : Prop where
  cfg : t'.cfg = t.cfg
  cpu : t'.cpu = t.cpu
  mem : t'.mem = t.mem
  life : t'.life = t.life
  blk : t.blk.UpToTimers st vt t'.blk
  out : t'.out.filter (fun o => o ∉ gateOutputs) = t.out.filter (fun o => o ∉ gateOutputs)

section
variable {st vt : Byte} {t t' : State}

theorem State.upToTimers_setBlk {b : Block} (h : t.blk.UpToTimers st vt b) : t.UpToTimers st vt (t.setBlk b) :=
  ⟨rfl, rfl, rfl, rfl, h, rfl⟩

theorem filter_gateCalls (s : State) : s.gateCalls.filter (fun o => o ∉ gateOutputs) = [] := by
  rw [List.filter_eq_nil_iff]
  intro o ho
  obtain ⟨on, rfl⟩ | rfl := mem_gateCalls s ho
  · cases on <;> decide
  · decide

theorem filter_evalGate_out (s : State) :
    s.evalGate.out.filter (fun o => o ∉ gateOutputs) = s.out.filter (fun o => o ∉ gateOutputs) := by
  rw [evalGate_out, List.filter_append, filter_gateCalls, List.append_nil]

/-! ### Each operation of the CPU keeps the agreement -/

variable (h : t.UpToTimers st vt t')
include h

theorem State.UpToTimers.setBlk {b b' : Block} (hb : b.UpToTimers st vt b') :
    (t.setBlk b).UpToTimers st vt (t'.setBlk b') := { h with blk := hb }

theorem State.UpToTimers.performWrite {w w' : Option (RegIx × Byte)} (hw : w' = w) :
    (t.performWrite w).UpToTimers st vt (t'.performWrite w') := by
  subst hw
  match w' with
  | none => exact h
  | some (x, v) => exact { h with cpu := congrArg (fun c : Cpu => { c with v := c.v.set x.val v x.isLt }) h.cpu }

theorem State.UpToTimers.advance : t.advance.UpToTimers st vt t'.advance :=
  { h with cpu := congrArg (fun c : Cpu => { c with pc := c.pc + 2 }) h.cpu }

theorem State.UpToTimers.setOut {o o' : List Output} (ho : o' = o) :
    (t.setOut o).UpToTimers st vt (t'.setOut o') := { h with out := congrArg _ ho }

theorem State.UpToTimers.evalGate : t.evalGate.UpToTimers st vt t'.evalGate :=
  { h with out := by rw [filter_evalGate_out, filter_evalGate_out, h.out] }

theorem State.UpToTimers.takeTrap (k : Trap) : (takeTrap k t).UpToTimers st vt (takeTrap k t') := { h with life := rfl }

theorem State.UpToTimers.raiseInvalid (w : Word) :
    (raiseInvalid w t).UpToTimers st vt (raiseInvalid w t') := by
  unfold Machine.raiseInvalid
  rw [h.cfg, h.cpu]
  split
  · exact (h.advance.setOut rfl).evalGate
  · exact (h.advance.setOut rfl).evalGate.takeTrap _

theorem State.UpToTimers.retire {w : Word} {r r' : Result} {u : State} (hr : r.UpToTimers st vt r')
    (hu : retire w r t = .next u) : ∃ u', Machine.retire w r' t' = .next u' ∧ u.UpToTimers st vt u' := by
  obtain ⟨hs, rfl⟩ | ⟨hs, rfl⟩ | ⟨hs, rfl⟩ | ⟨k, hs, rfl⟩ := retire_cases hu
  · exact ⟨_, retire_done t' (hr.status.trans hs),
      (((h.setBlk hr.blk).performWrite hr.write).advance.setOut hr.calls).evalGate⟩
  · exact ⟨_, retire_stall t' (hr.status.trans hs), ((h.setBlk hr.blk).setOut hr.calls).evalGate⟩
  · exact ⟨_, retire_invalid t' (hr.status.trans hs), h.raiseInvalid w⟩
  · exact ⟨_, retire_trap t' (hr.status.trans hs), (h.advance.setOut hr.calls).evalGate.takeTrap k⟩

end

/-! ### The commands' own rules -/

/-- A refused command gives the block back as it was (R85). -/
theorem Result.UpToTimers.accept {st vt : Byte} {b b' : Block} {r r' : Result} (hr : r.UpToTimers st vt r')
    (hb : b.UpToTimers st vt b') (c : Config) (g : Group) :
    (Machine.accept c g b r).UpToTimers st vt (Machine.accept c g b' r') := by
  unfold Machine.accept
  split
  · exact hr
  · exact ⟨hb, rfl, rfl, rfl⟩

section
variable (c : Config) (b : Block) (m : Memory) (vx vy : Byte) (i : Word) (n : Nibble) (st vt : Byte)

theorem blitResult_upToTimers :
    (blitResult c b m vx vy i n).UpToTimers st vt (blitResult c (b.withTimers st vt) m vx vy i n) := by
  have hfail : strictFailure c (b.withTimers st vt) i n = strictFailure c b i n := rfl
  unfold blitResult
  rw [hfail]
  cases strictFailure c b i n with
  | some a => exact ⟨b.upToTimers_withTimers st vt, rfl, rfl, rfl⟩
  | none => exact ⟨⟨rfl, .inl rfl, .inl rfl⟩, rfl, rfl, rfl⟩

/-- Without SPRITE_DELAY nothing waits for VT; with it, VT is the same and so is the form of the answer (R150). -/
theorem drwResult_upToTimers (hvt : vt = b.vt ∨ c.spriteDelay = false) :
    (drwResult c b m vx vy i n).UpToTimers st vt (drwResult c (b.withTimers st vt) m vx vy i n) := by
  have hblit := blitResult_upToTimers c b m vx vy i n st vt
  unfold drwResult
  obtain rfl | hoff := hvt
  · have hwait : (b.withTimers st b.vt).wait = b.wait := rfl
    have hvt : (b.withTimers st b.vt).vt = b.vt := rfl
    rw [hwait, hvt]
    split_ifs
    · exact ⟨⟨rfl, .inl rfl, .inr rfl⟩, rfl, rfl, rfl⟩
    · exact ⟨b.upToTimers_withTimers st b.vt, rfl, rfl, rfl⟩
    · exact hblit
  · simpa [hoff] using hblit

end

section
variable {i : Instr} {s : State} (st : Byte) {vt : Byte}

theorem commandResult_upToTimers (hvt : vt = s.blk.vt ∨ s.cfg.spriteDelay = false ∨ ∀ x y n, i ≠ .drw x y n) :
    (commandResult i s).UpToTimers st vt (commandResult i (s.setBlk (s.blk.withTimers st vt))) := by
  cases i with
  | drw x y n =>
    have hvt : vt = s.blk.vt ∨ s.cfg.spriteDelay = false := hvt.imp_right (·.resolve_right fun hne => hne x y n rfl)
    exact drwResult_upToTimers _ _ _ _ _ _ n st vt hvt
  | ldStVx x => exact ⟨⟨rfl, .inr rfl, .inl rfl⟩, rfl, rfl, rfl⟩
  | _ => exact ⟨⟨rfl, .inl rfl, .inl rfl⟩, rfl, rfl, rfl⟩

end

/-! ### Every instruction -/

theorem skipIf_setBlk (cond : Bool) (s : State) (b : Block) : skipIf cond (s.setBlk b) = (skipIf cond s).setBlk b := by
  cases cond <;> rfl

/-- The CPU context rows see nothing of the block (R4). -/
theorem exec_context_setBlk {i : Instr} {s t : State} (hi : i.isBlockCommand = false) (ht : exec i s = .next t)
    (b : Block) : exec i (s.setBlk b) = .next (t.setBlk b) := by
  cases i with
  | ldVxNn | ldINnn | jp => obtain rfl := Host.Outcome.next.inj ht; rfl
  | seVxNn | sneVxNn => obtain rfl := Host.Outcome.next.inj ht; exact congrArg _ (skipIf_setBlk _ s b)
  | _ => cases hi

theorem exec_context_blk {i : Instr} {s t : State} (hi : i.isBlockCommand = false) (ht : exec i s = .next t) :
    t.blk = s.blk := by
  obtain ⟨c, hc⟩ := exec_cpu s hi
  obtain rfl := Host.Outcome.next.inj (hc.symm.trans ht)
  rfl

theorem exec_upToTimers {i : Instr} {s t : State} (st : Byte) {vt : Byte}
    (hvt : vt = s.blk.vt ∨ s.cfg.spriteDelay = false ∨ ∀ x y n, i ≠ .drw x y n) (ht : exec i s = .next t) :
    ∃ u, exec i (s.setBlk (s.blk.withTimers st vt)) = .next u ∧ t.UpToTimers st vt u := by
  have hb := s.blk.upToTimers_withTimers st vt
  cases hi : i.isBlockCommand with
  | false => exact ⟨_, exec_context_setBlk hi ht _, State.upToTimers_setBlk (exec_context_blk hi ht ▸ hb)⟩
  | true =>
    rw [exec_block _ hi] at ht ⊢
    exact (State.upToTimers_setBlk hb).retire ((commandResult_upToTimers st hvt).accept hb s.cfg i.group) ht

/-- Settles O58: the command's own result agrees but for ST and VT, and so does the CPU's answer to it. -/
theorem noCommandReadsSoundOrVideoTimer : Obligations.NoCommandReadsSoundOrVideoTimer := by
  intro i s st vt hvt
  obtain ⟨t, ht⟩ := everyInstructionAnswersNext i s
  obtain ⟨u, hu, h⟩ := exec_upToTimers st hvt ht
  exact ⟨t, u, ht, hu, h.cpu, h.mem, h.life, h.blk.eq, h.blk.st, h.blk.vt, h.out⟩

end Sys2Proof.Machine

/-! # A failing Audio port

A failing Audio port is logged where it is called and changes nothing else (R189, R209): the machine whose Audio port
fails is `State.failAudio`, and every operation up to the step itself keeps it beside the machine whose port answers. -/

namespace Sys2Proof.Machine

/-- The machine with an Audio port that fails. -/
def State.failAudio (s : State) : State := s.setPorts s.displayOk false

/-- Outputs without a call of the Audio port and without its log line. -/
def Silent (o : List Output) : Prop := Output.logAudioFailure ∉ o ∧ ∀ on, Output.gate on ∉ o

/-- `o'` is `o` with the log line of a failing Audio port exactly where `o` calls `gate` (R209). -/
def LogsFailedGate (o o' : List Output) : Prop :=
  Output.logAudioFailure ∉ o ∧ o'.filter (· ≠ .logAudioFailure) = o ∧
    (Output.logAudioFailure ∈ o' ↔ ∃ on, Output.gate on ∈ o)

/-- `u` is `t` with an Audio port that fails and the log line of that failure. -/
structure State.AudioFails (t u : State) : Prop where
  eq : u = { t with audioOk := false, out := u.out }
  out : LogsFailedGate t.out u.out

/-! ### The outputs -/

section
variable {p o o' : List Output} (hp : Silent p)
include hp

theorem Silent.filter_eq_self : p.filter (· ≠ .logAudioFailure) = p :=
  List.filter_eq_self.mpr fun x hx => decide_eq_true fun hlog : x = .logAudioFailure => hp.1 (hlog ▸ hx)

theorem Silent.logsFailedGate : LogsFailedGate p p :=
  ⟨hp.1, hp.filter_eq_self, iff_of_false hp.1 fun ⟨on, hon⟩ => hp.2 on hon⟩

theorem LogsFailedGate.append_left (h : LogsFailedGate o o') : LogsFailedGate (p ++ o) (p ++ o') := by
  obtain ⟨hnot, hfilter, hlog⟩ := h
  refine ⟨by simp [hp.1, hnot], ?_, ?_⟩
  · rw [List.filter_append, hp.filter_eq_self, hfilter]
  · simpa [hp.1, hp.2] using hlog

end

theorem silent_nil : Silent [] := ⟨nofun, fun _ => nofun⟩

theorem silent_singleton {o : Output} (hlog : o ≠ .logAudioFailure) (hgate : ∀ on, o ≠ .gate on) : Silent [o] :=
  ⟨fun h => hlog (List.mem_singleton.mp h).symm, fun on h => hgate on (List.mem_singleton.mp h).symm⟩

theorem silent_commandResult_calls (i : Instr) (s : State) : Silent (commandResult i s).calls := by
  refine ⟨fun h => ?_, gate_not_mem_commandResult_calls i s⟩
  obtain ⟨-, _, _, _, ho⟩ := commandResult_calls h
  cases ho

/-- The gate's evaluation is the only operation that the Audio port's answer shows in (R189, R209). -/
theorem logsFailedGate_gateCalls {s : State} (hok : s.audioOk = true) :
    LogsFailedGate s.gateCalls s.failAudio.gateCalls := by
  by_cases hsame : s.blk.toneGate = s.gateSent
  · have hnone : s.gateCalls = [] := if_pos hsame
    have hnone' : s.failAudio.gateCalls = [] := if_pos hsame
    rw [hnone, hnone']
    exact silent_nil.logsFailedGate
  · have hgate : s.gateCalls = [.gate s.blk.toneGate] := by rw [State.gateCalls, if_neg hsame, hok]; rfl
    have hgate' : s.failAudio.gateCalls = [.gate s.blk.toneGate, .logAudioFailure] := if_neg hsame
    rw [hgate, hgate']
    exact ⟨by simp, by simp, by simp⟩

/-! ### Each operation of the CPU -/

section
variable {s t u : State}

theorem audioFails_of_silent (h : Silent s.out) : s.AudioFails s.failAudio := ⟨rfl, h.logsFailedGate⟩

theorem audioFails_evalGate (hok : s.audioOk = true) (h : Silent s.out) :
    s.evalGate.AudioFails s.failAudio.evalGate :=
  ⟨rfl, (logsFailedGate_gateCalls hok).append_left h⟩

theorem State.AudioFails.setLife (h : t.AudioFails u) (l : Life) : (t.setLife l).AudioFails (u.setLife l) :=
  ⟨congrArg (·.setLife l) h.eq, h.out⟩

theorem State.AudioFails.takeTrap (h : t.AudioFails u) (k : Trap) : (takeTrap k t).AudioFails (takeTrap k u) :=
  h.setLife _

theorem performWrite_failAudio (s : State) (w : Option (RegIx × Byte)) :
    s.failAudio.performWrite w = (s.performWrite w).failAudio := by
  cases w <;> rfl

variable (hok : s.audioOk = true)
include hok

theorem audioFails_raiseInvalid (w : Word) : (raiseInvalid w s).AudioFails (raiseInvalid w s.failAudio) := by
  have hcfg : s.failAudio.cfg = s.cfg := rfl
  unfold raiseInvalid
  rw [hcfg]
  split
  · exact audioFails_evalGate hok (silent_singleton nofun nofun)
  · exact (audioFails_evalGate (s := s.advance.setOut []) hok silent_nil).takeTrap _

theorem audioFails_retire {w : Word} {r : Result} (hr : Silent r.calls) (h : retire w r s = .next t) :
    ∃ u, retire w r s.failAudio = .next u ∧ t.AudioFails u := by
  obtain ⟨hs, rfl⟩ | ⟨hs, rfl⟩ | ⟨hs, rfl⟩ | ⟨k, hs, rfl⟩ := retire_cases h
  · have hblk : s.failAudio.setBlk r.blk = (s.setBlk r.blk).failAudio := rfl
    refine ⟨_, retire_done _ hs, ?_⟩
    rw [hblk, performWrite_failAudio]
    exact audioFails_evalGate (s := ((s.setBlk r.blk).performWrite r.write).advance.setOut r.calls) (by simp [hok]) hr
  · exact ⟨_, retire_stall _ hs, audioFails_evalGate (s := (s.setBlk r.blk).setOut r.calls) hok hr⟩
  · exact ⟨_, retire_invalid _ hs, audioFails_raiseInvalid hok w⟩
  · exact ⟨_, retire_trap _ hs, (audioFails_evalGate (s := s.advance.setOut r.calls) hok hr).takeTrap k⟩

end

/-! ### Every instruction -/

theorem commandResult_failAudio (i : Instr) (s : State) : commandResult i s.failAudio = commandResult i s := by
  cases i <;> rfl

theorem skipIf_failAudio (cond : Bool) (s : State) : skipIf cond s.failAudio = (skipIf cond s).failAudio := by
  cases cond <;> rfl

/-- The CPU context rows call no port (R4). -/
theorem exec_context_failAudio {i : Instr} {s t : State} (hi : i.isBlockCommand = false) (h : exec i s = .next t) :
    exec i s.failAudio = .next t.failAudio := by
  cases i with
  | ldVxNn | ldINnn | jp => obtain rfl := Host.Outcome.next.inj h; rfl
  | seVxNn | sneVxNn => obtain rfl := Host.Outcome.next.inj h; exact congrArg _ (skipIf_failAudio _ s)
  | _ => cases hi

theorem exec_context_out {i : Instr} {s t : State} (hi : i.isBlockCommand = false) (h : exec i s = .next t) :
    t.out = [] := by
  obtain ⟨c, hc⟩ := exec_cpu s hi
  obtain rfl := Host.Outcome.next.inj (hc.symm.trans h)
  rfl

theorem exec_failAudio {i : Instr} {s t : State} (hok : s.audioOk = true) (h : exec i s = .next t) :
    ∃ u, exec i s.failAudio = .next u ∧ t.AudioFails u := by
  cases hi : i.isBlockCommand with
  | false =>
    have hout : Silent t.out := by rw [exec_context_out hi h]; exact silent_nil
    exact ⟨_, exec_context_failAudio hi h, audioFails_of_silent hout⟩
  | true =>
    cases ha : i.wellFormedOn s.cfg.arch with
    | false =>
      obtain rfl := Host.Outcome.next.inj ((exec_unaccepted s ha).symm.trans h)
      exact ⟨_, exec_unaccepted s.failAudio ha, audioFails_raiseInvalid hok _⟩
    | true =>
      rw [exec_accepted _ hi ha] at h
      rw [exec_accepted s.failAudio hi ha, commandResult_failAudio]
      exact audioFails_retire hok (silent_commandResult_calls i s) h

/-! ### Every event -/

section
variable {s : State}

theorem audioFails_tick (hok : s.audioOk = true) : s.tick.AudioFails s.failAudio.tick := by
  have h := audioFails_evalGate (s := (s.setBlk (tickBlock s.blk)).setOut [s.presentCall]) hok
    (silent_singleton nofun nofun)
  have hdisplay : s.failAudio.displayOk = s.displayOk := rfl
  unfold State.tick
  rw [hdisplay]
  split
  · exact h
  · exact h.takeTrap _

theorem audioFails_hostStop (s : State) : s.hostStop.AudioFails s.failAudio.hostStop := by
  have h := audioFails_of_silent (s := s.setOut [s.presentCall]) (silent_singleton nofun nofun)
  have hdisplay : s.failAudio.displayOk = s.displayOk := rfl
  unfold State.hostStop
  rw [hdisplay]
  split
  · exact h.setLife _
  · exact h.takeTrap _

theorem perform_failAudio {t : State} {e : Event} (hok : s.audioOk = true) (h : s.perform e = .next t) :
    ∃ u, s.failAudio.perform e = .next u ∧ t.AudioFails u := by
  cases e with
  | cycle =>
    obtain ⟨i, hin, hi, hexec⟩ := cycle_next h
    obtain ⟨u, hu, hfails⟩ := exec_failAudio hok hexec
    exact ⟨u, (cycle_decoded (s := s.failAudio) hin hi).trans hu, hfails⟩
  | tick =>
    obtain rfl := Host.Outcome.next.inj h
    exact ⟨_, rfl, audioFails_tick hok⟩
  | stop =>
    obtain rfl := Host.Outcome.next.inj h
    exact ⟨_, rfl, audioFails_hostStop s⟩

/-- A running machine performs the turn that is listed first, with its port answers. -/
theorem step_of_schedule {turn : Turn} {rest : List Turn} (hl : s.life = .running) (hsch : s.schedule = turn :: rest) :
    step s = ((s.setSchedule rest).setPorts turn.displayOk turn.audioOk).perform turn.event := by
  simp only [step, hl, State.runTurn, takeTurn_cons hsch]

end

/-- Settles O39: the two machines take the same turn, and differ after it as the event's two performances do. -/
theorem audioFailureIsLoggedOnly : Obligations.AudioFailureIsLoggedOnly := by
  intro s t e d rest hsch h
  have hl := (step_cases h).1
  rw [step_of_schedule hl hsch] at h
  obtain ⟨u, hu, hfails⟩ := perform_failAudio rfl h
  have hstep := step_of_schedule (s := s.setSchedule ({ event := e, displayOk := d, audioOk := false } :: rest)) hl rfl
  exact ⟨u, hstep.trans hu, hfails.eq, hfails.out⟩

end Sys2Proof.Machine

/-! # The framebuffer reader and the Display port

The colour index (R201), and who calls the Display port and what follows where it fails (R202 to R208, R243). -/

namespace Sys2Proof.Machine

/-! ### The colour index (R201) -/

/-- A sum of powers of two, each taken or left out, is the number with these bits. -/
theorem sum_range_eq_ofBits (n : Nat) (f : Nat → Bool) :
    ((List.range n).map fun p => (f p).toNat * 2 ^ p).sum = Nat.ofBits fun p : Fin n => f p := by
  induction n generalizing f with
  | zero => rfl
  | succ n ih =>
    have htail : ((List.range n).map fun p => (f (p + 1)).toNat * 2 ^ (p + 1)).sum =
        2 * ((List.range n).map fun p => (f (p + 1)).toNat * 2 ^ p).sum := by
      rw [← List.sum_map_mul_left]
      exact congrArg List.sum (List.map_congr_left fun p _ => by ring)
    rw [Nat.ofBits_succ, List.range_succ_eq_map, List.map_cons, List.sum_cons, List.map_map, pow_zero, mul_one, add_comm]
    exact congrArg (· + (f 0).toNat) (htail.trans (congrArg (2 * ·) (ih fun p => f (p + 1))))

theorem State.colourIndex_eq_ofBits (s : State) (x y : Nat) :
    s.colourIndex x y = Nat.ofBits fun p : Fin s.cfg.arch.planes => pixelAt s.blk.fb p y x :=
  sum_range_eq_ofBits _ fun p => pixelAt s.blk.fb p y x

/-- Settles O45: the colour index is the number whose bits are the planes' pixels. -/
theorem colourIndexBits : Obligations.ColourIndexBits := by
  intro s x y
  rw [s.colourIndex_eq_ofBits]
  exact ⟨Nat.ofBits_lt_two_pow _, fun p hp => Nat.testBit_ofBits_lt _ p hp⟩

/-! ### Who calls the Display port (R202, R204, R205) -/

/-- What an instruction can send out: the mode change of LOW and HIGH, what the gate's evaluation sends, and the log line
of a skipped command. -/
theorem ExecAnswer.mem_out {i : Instr} {s t : State} (h : ExecAnswer i s t) {o : Output} (ho : o ∈ t.out) :
    ((i = .low ∨ i = .high) ∧ ∃ w h np, o = .setMode w h np) ∨ (∃ on, o = .gate on) ∨ o = .logAudioFailure ∨
      ∃ w pc, o = .logSkipped w pc := by
  cases h with
  | context => cases ho
  | invalid =>
    rw [raiseInvalid_out] at ho
    obtain hskip | hgate := List.mem_append.mp ho
    · split at hskip
      · exact .inr (.inr (.inr ⟨_, _, List.mem_singleton.mp hskip⟩))
      · cases hskip
    · exact .inr ((mem_gateCalls s hgate).imp_right .inl)
  | _ =>
    obtain hcall | hgate := List.mem_append.mp ho
    · exact .inl (commandResult_calls hcall)
    · exact .inr ((mem_gateCalls _ hgate).imp_right .inl)

/-- Settles O54: of the outputs an instruction can send, `set_mode` alone is a call of the Display port. -/
theorem whoCallsTheDisplay : Obligations.WhoCallsTheDisplay := by
  intro i s t h
  have hout {o : Output} := (exec_answer h).mem_out (o := o)
  exact ⟨fun _ _ ho => by simpa using hout ho, fun _ ho => by simpa using hout ho,
    fun _ _ _ ho => by simpa using hout ho⟩

/-! ### A Display port that fails (R208, R243) -/

theorem exec_mode_displayFails {s : State} (ha : s.cfg.arch.accepts .schip = true) (hfail : s.displayOk = false)
    (hi : Bool) : exec (if hi then .high else .low) s = .next
      (takeTrap .displayPortError (s.advance.setOut (modeResult s.cfg s.blk hi s.displayOk).calls).evalGate) := by
  have htrap : (modeResult s.cfg s.blk hi s.displayOk).status = .trap .displayPortError := by rw [hfail]; rfl
  cases hi with
  | true => exact (exec_accepted (i := .high) s rfl ha).trans (retire_trap s htrap)
  | false => exact (exec_accepted (i := .low) s rfl ha).trans (retire_trap s htrap)

/-- Settles O14: a trap discards the result's block (R246), and the gate is evaluated of the block that stays. -/
theorem modeChangeTrapsWhenDisplayFails : Obligations.ModeChangeTrapsWhenDisplayFails := fun _ hi ha hfail =>
  ⟨_, exec_mode_displayFails ha hfail hi, rfl, rfl, fun _ => rfl, rfl, rfl, fun _ => rfl⟩

@[simp] theorem hostStop_out (s : State) : s.hostStop.out = [s.presentCall] := by unfold State.hostStop; split <;> rfl

theorem hostStop_life (s : State) :
    s.hostStop.life = if s.displayOk then .returned else .trapped .displayPortError := by
  unfold State.hostStop; split <;> rfl

theorem step_of_returned {s : State} (hl : s.life = .returned) : step s = .fault .machineReturned := by rw [step, hl]

theorem step_of_trapped {s : State} {k : Trap} (hl : s.life = .trapped k) : step s = .fault (.machineTrapped k) := by
  rw [step, hl]

/-- Settles O37: the stop's turn is performed with its Display answer, which alone decides how the machine ends. -/
theorem stopPresentsAndReturns : Obligations.StopPresentsAndReturns := by
  intro s d a rest hl hsch
  have hlife := hostStop_life ((s.setSchedule rest).setPorts d a)
  refine ⟨_, step_of_schedule hl hsch, by simp, by simp, by simp, hostStop_out _, fun hd => ?_, fun hd => ?_⟩
  · have hret := hlife.trans (if_pos hd)
    exact ⟨hret, step_of_returned hret⟩
  · have htrap := hlife.trans (if_neg (by simp [hd]))
    exact ⟨htrap, step_of_trapped htrap⟩

end Sys2Proof.Machine

/-! # The CPU context

What a CPU cycle runs (R220), and the five context rows 6xNN, Annn, 1nnn, 3xNN and 4xNN (R221 to R225). -/

namespace Sys2Proof.Machine

/-- Settles O5: the cycle runs in the state that `takeTurn` leaves, which is `s` itself where no turn is listed. -/
theorem stepRunsDecodedInstruction : Obligations.StepRunsDecodedInstruction := by
  intro s i hl hin hi
  constructor
  · intro hsch
    have hturn := takeTurn_nil hsch
    rw [step_of_cycle hl (by rw [hturn]) hin hi, hturn]
  · intro d a rest hsch
    have hturn := takeTurn_cons hsch
    rw [step_of_cycle hl (by rw [hturn]) hin hi, hturn]
    rfl

/-- A context row may change V, I, PC and the outputs alone. -/
theorem exec_context_frame {i : Instr} {s t : State} (hi : i.isBlockCommand = false) (h : exec i s = .next t) :
    Frame s t := by
  obtain ⟨c, hc⟩ := exec_cpu s hi
  obtain rfl := Host.Outcome.next.inj (hc.symm.trans h)
  exact ⟨rfl, fun _ => rfl, rfl, rfl, rfl, rfl⟩

/-! ### Loads and the jump (R221 to R223) -/

/-- Settles O40: V[x] alone is written, and PC advances. -/
theorem loadImmediate : Obligations.LoadImmediate := fun x nn s =>
  ⟨(s.setV x nn).advance.setOut [], rfl, exec_context_frame (i := .ldVxNn x nn) rfl rfl, rfl, setV_getV_same s x nn,
    fun _ hr => setV_getV_other s nn hr, rfl, rfl, rfl⟩

/-- Settles O41: I alone is written, with no bit of `nnn` lost, and PC advances. -/
theorem loadIndex : Obligations.LoadIndex := fun nnn s =>
  ⟨fun _ => decodeWord_eq_some_iff, (s.setI (nnn.setWidth 16)).advance.setOut [], rfl,
    exec_context_frame (i := .ldINnn nnn) rfl rfl, rfl, fun _ => rfl,
    BitVec.toNat_setWidth_of_le (by decide), rfl, rfl⟩

/-- Settles O42: PC alone is written, so a jump to PC writes what stands there. -/
theorem jumpSetsPc : Obligations.JumpSetsPc := fun nnn s =>
  ⟨fun _ => decodeWord_eq_some_iff, (s.setPc nnn.toNat).setOut [], rfl,
    exec_context_frame (i := .jp nnn) rfl rfl, rfl, fun _ => rfl, rfl, rfl, rfl,
    fun hself => congrArg (fun pc => { s.cpu with pc }) hself⟩

/-! ### Skips (R224, R225) -/

theorem skipLength_of_inMemory {s : State} {a : Nat} (h : a + 1 < s.cfg.arch.memSize) :
    s.skipLength a = if s.readWord a = 0xF000#16 then 4 else 2 := by
  simp only [State.skipLength, State.peekWord, State.wordInMemory, h, decide_true, if_true]

theorem skipLength_eq_two_or_four (s : State) (a : Nat) : s.skipLength a = 2 ∨ s.skipLength a = 4 := by
  unfold State.skipLength
  split
  · exact .inr rfl
  · exact .inl rfl

@[simp] theorem skipIf_v (cond : Bool) (s : State) : (skipIf cond s).cpu.v = s.cpu.v := v_ext (skipIf_getV cond s)

@[simp] theorem skipIf_gateSent (cond : Bool) (s : State) : (skipIf cond s).gateSent = s.gateSent := by
  cases cond <;> rfl

theorem skipIf_pc (cond : Bool) (s : State) :
    (skipIf cond s).cpu.pc = s.cpu.pc + 2 + if cond then s.skipLength (s.cpu.pc + 2) else 0 := by
  cases cond <;> rfl

/-- SE (`eq`) skips when V[x] equals NN, SNE (not `eq`) when it differs. -/
theorem exec_skip (x : RegIx) (nn : Byte) (s : State) (eq : Bool) :
    exec (if eq then .seVxNn x nn else .sneVxNn x nn) s = .next (skipIf (decide (s.getV x = nn ↔ eq = true)) s) := by
  cases eq with
  | true => simp only [iff_true]; rfl
  | false => simp only [Bool.false_eq_true, iff_false, decide_not]; rfl

/-- Settles O43: the condition decides whether PC moves past the next word, whose length is read where it lies in
memory and is one of two where it does not. -/
theorem skipsOnComparison : Obligations.SkipsOnComparison := by
  intro x nn s eq
  have hexec := exec_skip x nn s eq
  have hframe := exec_context_frame (by cases eq <;> rfl) hexec
  refine ⟨_, hexec, hframe, skipIf_blk _ s, skipIf_v _ s, skipIf_i _ s, skipIf_gateSent _ s,
    fun hskip => ?notTaken, fun hskip hin => ?inside, fun hskip _ => ?beyond⟩
  case notTaken =>
    have hnot : ¬(s.getV x = nn ↔ eq = true) := by simp [hskip]
    rw [skipIf_pc, decide_eq_false hnot]
    rfl
  case inside =>
    rw [skipIf_pc, decide_eq_true hskip, if_pos rfl, skipLength_of_inMemory hin]
  case beyond =>
    rw [skipIf_pc, decide_eq_true hskip, if_pos rfl]
    exact (skipLength_eq_two_or_four s (s.cpu.pc + 2)).imp (congrArg _) (congrArg _)

end Sys2Proof.Machine

/-! # Exceptions

Where a step stops (R247, R258), the traps a command raises (R240 to R244, R246), the boot checks (R245, R271), and the
machines that never trap. -/

namespace Sys2Proof.Machine

/-! ### Where a step stops -/

theorem takeTurn_event_of_cycleComes {s : State} (h : CycleComes s) : s.takeTurn.1 = .cycle := by
  obtain hsch | ⟨d, a, rest, hsch⟩ := h
  · rw [takeTurn_nil hsch]
  · rw [takeTurn_cons hsch]

theorem step_of_cycleComes {s : State} (hl : s.life = .running) (h : CycleComes s) : step s = s.takeTurn.2.cycle := by
  simp only [step, hl, State.runTurn, takeTurn_event_of_cycleComes h, State.perform]

/-- Settles O6: a stopped machine takes no turn; a cycle fetches at the PC and in the memory that its turn leaves. -/
theorem stepStops : Obligations.StepStops := by
  refine ⟨fun s k => step_of_trapped, fun s => step_of_returned, fun s hl hc hout => ?outside,
    fun s hl hc hin hword => ?noRow⟩
  case outside =>
    have hfetch : s.takeTurn.2.wordInMemory s.takeTurn.2.cpu.pc = false := by simpa [State.wordInMemory] using hout
    rw [step_of_cycleComes hl hc, cycle_outside hfetch, takeTurn_cpu]
  case noRow =>
    have hfetch : s.takeTurn.2.wordInMemory s.takeTurn.2.cpu.pc = true := by simpa [State.wordInMemory] using hin
    have hread : s.takeTurn.2.readWord s.takeTurn.2.cpu.pc = s.readWord s.cpu.pc := by simp [State.readWord]
    rw [step_of_cycleComes hl hc, cycle_noRow hfetch (by rw [hread, hword]), hread, takeTurn_cpu]

/-! ### The traps of a command -/

section
variable {i : Instr} {s t : State} {k : Trap}

/-- A running machine is trapped by an instruction in two ways: the dialect refuses the command and DEBUG_SKIP is off
(R241, R244), or the command's own rule traps (R246). -/
theorem exec_trap_cases (hl : s.life = .running) (h : exec i s = .next t) (hk : t.life = .trapped k) :
    (i.wellFormedOn s.cfg.arch = false ∧ s.cfg.debugSkip = false ∧ k = .invalidOpcode (encodeWord i) s.cpu.pc ∧
      t = raiseInvalid (encodeWord i) s) ∨
    ((commandResult i s).status = .trap k ∧ t = takeTrap k (s.advance.setOut (commandResult i s).calls).evalGate) := by
  cases exec_answer h with
  | context | done | stall => simp [hl] at hk
  | invalid ha =>
    cases hskip : s.cfg.debugSkip with
    | true => simp [raiseInvalid_life, hskip, hl] at hk
    | false =>
      rw [raiseInvalid_life, hskip] at hk
      exact .inl ⟨ha, rfl, (Life.trapped.inj hk).symm, rfl⟩
  | trap _ k' hs =>
    obtain rfl := Life.trapped.inj hk
    exact .inr ⟨hs, rfl⟩

/-- R246: a trap discards the block and the register write of the command's result. -/
theorem exec_trap_frame (hl : s.life = .running) (h : exec i s = .next t) (hk : t.life = .trapped k) :
    t.blk = s.blk ∧ t.cpu.v = s.cpu.v ∧ t.cpu.i = s.cpu.i ∧ t.mem = s.mem := by
  obtain ⟨-, -, -, rfl⟩ | ⟨-, rfl⟩ := exec_trap_cases hl h hk
  · obtain ⟨hblk, -, hmem, hcpu, -⟩ := raiseInvalid_frame s (encodeWord i)
    exact ⟨hblk, by rw [hcpu, advance_v], by rw [hcpu, advance_i], hmem⟩
  · exact ⟨rfl, rfl, rfl, rfl⟩

/-- No CPU context row traps: those leave the machine's life as it was. -/
theorem isBlockCommand_of_trap (hl : s.life = .running) (h : exec i s = .next t) (hk : t.life = .trapped k) :
    i.isBlockCommand = true := by
  by_contra hi
  obtain ⟨-, -, hlife, -⟩ := exec_context_frame (by simpa using hi) h
  simp [hlife, hl] at hk

theorem strictBlitIndex_of_strictFailure {c : Config} {b : Block} {x : Word} {n : Nibble} {a : Nat}
    (h : strictFailure c b x n = some a) : c.strictBlitIndex = true := by
  by_contra hoff
  simp [strictFailure, hoff] at h

end

/-- Settles O52: the frame of a trap, and the gate's evaluation of the block that stays, which O38 states. -/
theorem trapsArePrecise : Obligations.TrapsArePrecise := by
  intro i s t k hl h hk
  obtain ⟨hblk, hv, hi, hmem⟩ := exec_trap_frame hl h hk
  obtain ⟨hsent, hgate⟩ := gateFollowsSoundTimer i s t (isBlockCommand_of_trap hl h hk) h
  refine ⟨hblk, hv, hi, hmem, hsent, fun hsame on hon => ?_⟩
  obtain ⟨hnew, hne⟩ := (hgate on).mp hon
  exact hne (by rw [hnew, hblk, hsame])

/-- Settles O53: the dialect's refusal, and the two causes for which a command's own rule traps. -/
theorem trapKindsAndCauses : Obligations.TrapKindsAndCauses := by
  intro i s t k hl h hk
  obtain ⟨ha, hskip, rfl, -⟩ | ⟨hs, -⟩ := exec_trap_cases hl h hk
  · exact .inl ⟨rfl, rfl, ha, hskip⟩
  · obtain ⟨x, y, n, a, rfl, hfail, rfl⟩ | ⟨hmode, hport, rfl⟩ := commandResult_trap hs
    · exact .inr (.inl ⟨a, rfl, rfl, (strictFailure_eq_some hfail).1, strictBlitIndex_of_strictFailure hfail, x, y, n,
        rfl⟩)
    · exact .inr (.inr ⟨rfl, rfl, hport, hmode⟩)

/-! ### The boot checks (R245, R271) -/

theorem planesOk_eq_true {A : Arch} {r : BootRequest} : planesOk A r = true ↔
    (∀ k, r.planeCount = some k → k = A.planes) ∧ (∀ k, r.planeMask = some k → k < 2 ^ A.planes) := by
  unfold planesOk
  rw [Bool.and_eq_true]
  refine and_congr ?_ ?_
  · cases r.planeCount <;> simp
  · cases r.planeMask <;> simp

section
variable {r : BootRequest} {A : Arch}

theorem bootConfig_of_noArch (h : r.arch = none) : bootConfig r = .error .archValid := by simp only [bootConfig, h]

theorem bootConfig_of_badPlanes (hA : r.arch = some A) (h : planesOk A r = false) : bootConfig r = .error .planes := by
  simp only [bootConfig, hA, h, if_true]

theorem bootConfig_of_badPalette (hA : r.arch = some A) (hp : planesOk A r = true)
    (h : r.rest.palette.length ≠ 2 ^ A.planes) : bootConfig r = .error .paletteSize := by
  simp only [bootConfig, hA, hp, h, ne_eq, not_false_eq_true, if_true, Bool.true_eq_false, if_false]

/-- A machine that fails a check is trapped with that check, whatever the ports would answer. -/
theorem boot_life_of_error {k : BootCheck} (h : bootConfig r = .error k) (m p a : Bool) :
    (boot r m p a).life = .trapped (.configurationError k) := by
  simp only [boot, h]
  rfl

end

/-- Settles O10: the checks of `bootConfig` in their order, (b) failing exactly for the requests the statement names. -/
theorem bootChecksConfiguration : Obligations.BootChecksConfiguration := by
  refine fun r m p a => ⟨fun hA => boot_life_of_error (bootConfig_of_noArch hA) m p a, fun A hA => ⟨fun hbad => ?_,
    fun hcount hmask hpal => ?_⟩⟩
  · refine boot_life_of_error (bootConfig_of_badPlanes hA (Bool.eq_false_iff.mpr fun hok => ?_)) m p a
    obtain ⟨hcount, hmask⟩ := planesOk_eq_true.mp hok
    obtain ⟨k, hk, hne⟩ | ⟨k, hk, hle⟩ := hbad
    · exact hne (hcount k hk)
    · exact Nat.not_lt.mpr hle (hmask k hk)
  · exact boot_life_of_error (bootConfig_of_badPalette hA (planesOk_eq_true.mpr ⟨hcount, hmask⟩) hpal) m p a

/-! ### Machines that never trap -/

/-- What holds in all that is reached from `s` when it holds of `s` and every step keeps it. -/
theorem Reaches.of_step_keeps {P : State → Prop} {s u : State} (hs : P s)
    (hstep : ∀ {t v}, P t → Steps t v → P v) (h : Reaches s u) : P u := by
  induction h with
  | refl => exact hs
  | tail _ hv ih => exact hstep ih hv

theorem ExecAnswer.schedule_displayOk {i : Instr} {s t : State} (h : ExecAnswer i s t) :
    t.schedule = s.schedule ∧ t.displayOk = s.displayOk := by
  cases h with
  | invalid =>
    obtain ⟨-, -, -, -, hsched, hdisplay, -⟩ := raiseInvalid_frame s (encodeWord i)
    exact ⟨hsched, hdisplay⟩
  | _ => simp

/-- A machine none of whose instructions can trap: its dialect accepts every command (R11), no blit is checked strictly
(R152), and the Display port answers now and in every turn listed (R208). -/
structure State.Untrappable (s : State) : Prop where
  isXo : s.cfg.arch.isXo = true
  lenient : s.cfg.strictBlitIndex = false
  displayOk : s.displayOk = true
  turnsOk : ∀ t ∈ s.schedule, t.displayOk = true
  untrapped : ∀ k, s.life ≠ .trapped k

@[simp] theorem hostStop_displayOk (s : State) : s.hostStop.displayOk = s.displayOk := by
  unfold State.hostStop; split <;> rfl

theorem wellFormedOn_of_isXo {A : Arch} (h : A.isXo = true) (i : Instr) : i.wellFormedOn A = true := by
  cases A with
  | xochip | xochip16 => cases i <;> rfl
  | _ => cases h

section
variable {s t : State}

theorem State.Untrappable.takeTurn (h : s.Untrappable) : s.takeTurn.2.Untrappable := by
  cases hsch : s.schedule with
  | nil => rw [takeTurn_nil hsch]; exact h
  | cons turn rest =>
    rw [takeTurn_cons hsch]
    have hturns : ∀ u ∈ turn :: rest, u.displayOk = true := hsch ▸ h.turnsOk
    exact { h with
      displayOk := hturns turn List.mem_cons_self
      turnsOk := fun u hu => hturns u (List.mem_cons_of_mem _ hu) }

/-- Each cause of a trap (O53) is ruled out. -/
theorem State.Untrappable.exec_untrapped {i : Instr} (h : s.Untrappable) (hl : s.life = .running)
    (ht : exec i s = .next t) (k : Trap) : t.life ≠ .trapped k := fun hk => by
  obtain ⟨-, -, ha, -⟩ | ⟨_, -, -, -, hstrict, -⟩ | ⟨-, -, hport, -⟩ := trapKindsAndCauses i s t k hl ht hk
  · simp [wellFormedOn_of_isXo h.isXo] at ha
  · simp [h.lenient] at hstrict
  · simp [h.displayOk] at hport

theorem State.Untrappable.exec {i : Instr} (h : s.Untrappable) (hl : s.life = .running)
    (ht : Machine.exec i s = .next t) : t.Untrappable := by
  have hcfg := (exec_answer ht).cfg
  obtain ⟨hsched, hdisplay⟩ := (exec_answer ht).schedule_displayOk
  exact ⟨hcfg ▸ h.isXo, hcfg ▸ h.lenient, hdisplay ▸ h.displayOk, hsched ▸ h.turnsOk, h.exec_untrapped hl ht⟩

theorem State.Untrappable.tick (h : s.Untrappable) : s.tick.Untrappable where
  isXo := by simpa using h.isXo
  lenient := by simpa using h.lenient
  displayOk := by simpa using h.displayOk
  turnsOk := by simpa using h.turnsOk
  untrapped := by
    rw [tick_life, if_pos h.displayOk]
    exact h.untrapped

theorem State.Untrappable.hostStop (h : s.Untrappable) : s.hostStop.Untrappable where
  isXo := by simpa using h.isXo
  lenient := by simpa using h.lenient
  displayOk := by simpa using h.displayOk
  turnsOk := by simpa using h.turnsOk
  untrapped := by
    rw [hostStop_life, if_pos h.displayOk]
    exact nofun

theorem State.Untrappable.step (h : s.Untrappable) (ht : Steps s t) : t.Untrappable := by
  obtain ⟨hl, ⟨-, i, hexec⟩ | ⟨-, rfl⟩ | ⟨-, rfl⟩⟩ := step_cases ht
  · exact h.takeTurn.exec ((takeTurn_life s).trans hl) hexec
  · exact h.takeTurn.tick
  · exact h.takeTurn.hostStop

end

/-- Settles O57: the hypotheses, with the machine not trapped, are an invariant of the run. -/
theorem lenientXoMachineNeverTraps : Obligations.LenientXoMachineNeverTraps :=
  fun s hl hxo hlenient hport hturns _ hreach =>
    have hs : s.Untrappable := ⟨hxo, hlenient, hport, hturns, fun _ => by rw [hl]; exact nofun⟩
    (hreach.of_step_keeps hs State.Untrappable.step).untrapped

end Sys2Proof.Machine

/-! # Boot

What the boot of a request that passes the checks leaves (R270, R272), for each answer of the ports (R208, R209, R243). -/

namespace Sys2Proof.Machine

section
variable {r : BootRequest} {A : Arch} {c : Config}

theorem BootRequest.config_of_arch (hA : r.arch = some A) : r.config = { r.rest with arch := A } := by
  simp only [BootRequest.config, hA, Option.getD_some]

/-- A request that passes (a), (b) and (c) boots with the configuration it asks for. -/
theorem bootConfig_of_checks (hA : r.arch = some A) (hp : planesOk A r = true)
    (hpal : r.rest.palette.length = 2 ^ A.planes) : bootConfig r = .ok r.config := by
  simp only [bootConfig, hA, hp, hpal, Bool.true_eq_false, ne_eq, not_true_eq_false, if_false]

/-- Ports that answer: reset is all that boot does. -/
theorem boot_of_portsAnswer (h : bootConfig r = .ok c) : boot r true true true = State.resetWith c := by
  simp only [boot, h]
  rfl

/-- A failing Audio port stops nothing: its failure is logged after the calls of reset. -/
theorem boot_of_audioFails (h : bootConfig r = .ok c) : boot r true true false =
    ((State.resetWith c).setPorts true false).setOut ((State.resetWith c).out ++ [.logAudioFailure]) := by
  simp only [boot, h]
  rfl

/-- A failing `set_mode` traps after that one call, whatever the other calls would answer. -/
theorem boot_of_setModeFails (h : bootConfig r = .ok c) (p a : Bool) : boot r false p a =
    bootTrap .displayPortError ((State.resetWith c).setPorts false a) ((State.resetWith c).out.take 1) := by
  simp only [boot, h]
  rfl

/-- A `set_palette` that fails after `set_mode` traps after those two calls. -/
theorem boot_of_setPaletteFails (h : bootConfig r = .ok c) (a : Bool) : boot r true false a =
    bootTrap .displayPortError ((State.resetWith c).setPorts false a) ((State.resetWith c).out.take 2) := by
  simp only [boot, h]
  rfl

end

/-- Settles O11: the checks passed fix the configuration; then one equation of `boot` for each answer of the ports. -/
theorem bootSequence : Obligations.BootSequence := by
  intro r A hA hcount hmask hpal
  have hconfig : bootConfig r = .ok { r.rest with arch := A } := by
    rw [bootConfig_of_checks hA (planesOk_eq_true.mpr ⟨hcount, hmask⟩) hpal, BootRequest.config_of_arch hA]
  refine ⟨boot_of_portsAnswer hconfig, boot_of_audioFails hconfig, fun p a => ?setMode, fun a => ?setPalette⟩
  case setMode =>
    rw [boot_of_setModeFails hconfig]
    exact ⟨rfl, rfl, rfl⟩
  case setPalette =>
    rw [boot_of_setPaletteFails hconfig]
    exact ⟨rfl, rfl, rfl⟩

end Sys2Proof.Machine
